-- ==== Sys2Proof/Word.lean ====
section
/-! DEFINITION. The byte, the only word the block computes on (`00_scope.md` R11). -/

namespace Sys2Proof

/-- A byte: an unsigned integer in `0..255`, eight bits, bit 0 the least significant (R11). -/
abbrev Byte := BitVec 8

end Sys2Proof
end

