-- ==== Sys2Proof/Config.lean ====
section
/-! DEFINITION. What is fixed for a block when it is built (`00_scope.md` R7), and the free values: constants with
no body, of which nothing can be proved. -/

namespace Sys2Proof

/-- `SYNC`, the value of the first byte of every frame: the one constant the source fixes (R7). -/
def Config.sync : Byte := 0xA4#8

/-- `out_type` of a frame decoded with `L = 0` is any value of 8 bits, drawn at each such `DECODED`
(R120, `93_implementation_defined.md` U2). The argument is the number of the draw, `State.draws`.
DESIGN CHOICE (log 8): a free value. Safe. -/
opaque Config.freeOutType : Nat → Byte

/-- What a byte of `rx_buf` that nothing has written holds: any value per byte (R39, U4). No state that a run
reaches reads one. DESIGN CHOICE (log 9): a free value per index. Safe. -/
opaque Config.unwrittenByte : Nat → Byte

/-- The four parameters the source leaves open (R7; D8, D9, D12). They are static: no operation writes them (R34).
`LINE_BIT_ORDER` and `IRQ_ON_OUTCOME` are omitted, as R7 allows (log 2). -/
structure Params where
  /-- `CAP`, the capacity of the frame buffer in bytes, sync and checksum included. -/
  cap : Nat
  /-- `T_BYTE`, the inter-byte interval in ticks. -/
  tByte : Nat
  /-- `ACC_W`, the width in bits of a cumulative total. -/
  accW : Nat
  /-- `N_ACC`, the number of accumulator instances. -/
  nAcc : Nat
deriving DecidableEq, Repr

/-- The ranges R7 gives the parameters. -/
abbrev Params.Valid (p : Params) : Prop :=
  4 ≤ p.cap ∧ p.cap ≤ 258 ∧ 1 ≤ p.tByte ∧ 8 < p.accW ∧ 1 ≤ p.nAcc ∧ p.nAcc ≤ 16

/-- The parameters of the one state `State.reset`: those the spec's test vectors take unless they say otherwise
(`95_test_vectors.md` section 0); 32 and 1 are also the values R7 suggests.
DESIGN CHOICE (log 1): the spec leaves all four OPEN. Unsafe for a claim about `State.reset` alone. -/
def Params.ofVectors : Params := { cap := 16, tByte := 3, accW := 32, nAcc := 1 }

end Sys2Proof
end

