-- ==== Sys2Proof/Syntax.lean ====
section
/-! DEFINITION. The operations the block accepts (`30_encoding.md` R70, R71), one constructor for each row of
`spec/opcode_table.json`: nine operations, seven reserved codes and the wire frame. -/

namespace Sys2Proof

/-- One row of the operation table with its operands (R70). -/
inductive Instr where
  /-- `NOP`, code `0x0` (R150). -/
  | nop
  /-- `RESET`, code `0x1` (R151). -/
  | reset
  /-- `ENC t, [p]`, code `0x2`: message type and payload; the field `n` is the length of `p` (R82, R100). -/
  | enc (t : Byte) (p : List Byte)
  /-- `DEC_BYTE d`, code `0x3` (R110). -/
  | decByte (d : Byte)
  /-- `DEC_TICK`, code `0x4` (R123). -/
  | decTick
  /-- `DEC_ARM`, code `0x5` (R127). -/
  | decArm
  /-- `DEC_ABORT`, code `0x6` (R128). -/
  | decAbort
  /-- `ACC_UPDATE k, d`, code `0x7` (R140). -/
  | accUpdate (k : BitVec 4) (d : Byte)
  /-- `ACC_LOAD k, d, c`, code `0x8` (R142). The width of `c` is the parameter `ACC_W`, so `c` is a number. -/
  | accLoad (k : BitVec 4) (d : Byte) (c : Nat)
  /-- Reserved code `0x9` (R152). -/
  | reserved9
  /-- Reserved code `0xA` (R152). -/
  | reservedA
  /-- Reserved code `0xB` (R152). -/
  | reservedB
  /-- Reserved code `0xC` (R152). -/
  | reservedC
  /-- Reserved code `0xD` (R152). -/
  | reservedD
  /-- Reserved code `0xE` (R152). -/
  | reservedE
  /-- Reserved code `0xF` (R152). -/
  | reservedF
  /-- The wire frame `SYNC L body cs` (R72): `body` is the `L` bytes after the length byte (message type and
  payload; none when `L = 0`, R79) and `cs` the checksum byte as it arrives, right or wrong (R78).
  DESIGN CHOICE (log 4): the row is a constructor whose meaning feeds the frame's bytes to the decoder. -/
  | frame (body : List Byte) (cs : Byte)
deriving DecidableEq, Repr

/-- Why a request is no encoding of an operation. DESIGN CHOICE (log 3): the layout of a request is the model's. -/
inductive DecodeError where
  /-- The request has no byte. -/
  | empty
  /-- The first byte is neither a zero-extended 4-bit operation code nor the sync byte of a wire frame. -/
  | notARequest (lead : Byte)
  /-- The request ends before the operand fields its first byte calls for. -/
  | truncated (lead : Byte)
deriving DecidableEq, Repr

end Sys2Proof
end

