-- ==== Sys2Proof/WellFormed.lean ====
section
/-! DEFINITION. What the fields of an encoding can hold: the payload length `n[7:0]` of `ENC` and the length byte `L`
of a wire frame are one byte each (`30_encoding.md` R70, R72). All other operands fill their fields exactly. -/

namespace Sys2Proof

/-- The length of an `ENC` payload fits the field `n[7:0]` (R70). That it is at most `MAX_PAYLOAD` is a
precondition on the host and not part of the encoding (R103). -/
abbrev payloadFitsField (p : List Byte) : Prop := p.length ≤ 255

/-- The body of a wire frame fits the length byte (R72, R73). -/
abbrev bodyFitsLength (body : List Byte) : Prop := body.length ≤ 255

/-- The operands of an operation fit the fields of its encoding. -/
def Instr.wellFormed : Instr → Bool
  | .nop => true
  | .reset => true
  | .enc _ p => decide (payloadFitsField p)
  | .decByte _ => true
  | .decTick => true
  | .decArm => true
  | .decAbort => true
  | .accUpdate _ _ => true
  | .accLoad _ _ _ => true
  | .reserved9 => true
  | .reservedA => true
  | .reservedB => true
  | .reservedC => true
  | .reservedD => true
  | .reservedE => true
  | .reservedF => true
  | .frame body _ => decide (bodyFitsLength body)

/-- `Instr.wellFormed` as a proposition. -/
abbrev Instr.WellFormed (i : Instr) : Prop := i.wellFormed = true

end Sys2Proof
end

