-- ==== Sys2Proof/Decode.lean ====
section
/-! DEFINITION. From the bytes of a request to an operation, and back.

The spec fixes the 4-bit code, the operand fields and their order (`30_encoding.md` R70, R71; the encoding column of
`95_test_vectors.md`) and the wire frame byte by byte (R72); it leaves open how the fields travel (R71).
DESIGN CHOICE (log 3): a request is a sequence of bytes,

* byte 0: the operation code, zero-extended; or `0xA4`, the first byte of a wire frame;
* then the operand fields in the order of R70: `t`, `n`, `p[0]`, `p[1]`, ... for `ENC`; `d` for `DEC_BYTE`; `k` (bits 3:0
  of a byte), `d` for `ACC_UPDATE`; `k`, `d`, then `c` for `ACC_LOAD`, whose width is the parameter `ACC_W`: seven bits a
  byte, least significant first, bit 7 set in every byte but the last; the frame's bytes in wire order for `FRAME`;
* bytes behind the fields an operation names are ignored (R71, U7). -/

namespace Sys2Proof

/-- The number at the front of a sequence of bytes: seven bits a byte, least significant first, bit 7 set in every byte but
the last; none if the sequence ends first. -/
def wideValue : List Byte → Option Nat
  | [] => none
  | b :: bs =>
    if b.toNat < 128 then some b.toNat
    else (wideValue bs).map (fun v => b.toNat - 128 + 128 * v)

/-- A number below `128 ^ (n + 1)` as such a sequence. -/
def wideBytes : Nat → Nat → List Byte
  | 0, c => [BitVec.ofNat 8 c]
  | n + 1, c =>
    if c < 128 then [BitVec.ofNat 8 c] else BitVec.ofNat 8 (128 + c % 128) :: wideBytes n (c / 128)

/-- The first `n` bytes of a number, least significant byte first. -/
def leBytes : Nat → Nat → List Byte
  | 0, _ => []
  | n + 1, c => BitVec.ofNat 8 c :: leBytes n (c / 256)

/-- The first `n` bytes and the rest, if there are so many. -/
def splitBytes : Nat → List Byte → Option (List Byte × List Byte)
  | 0, bs => some ([], bs)
  | _ + 1, [] => none
  | n + 1, b :: bs => (splitBytes n bs).map (fun r => (b :: r.1, r.2))

/-- `ENC`: the message type, the payload length, the payload (R70, R71). -/
def decodeEnc : List Byte → Except DecodeError Instr
  | t :: n :: bytes =>
    match splitBytes n.toNat bytes with
    | some (p, _) => .ok (.enc t p)
    | none => .error (.truncated 2)
  | _ => .error (.truncated 2)

/-- `DEC_BYTE`: the received byte (R70). -/
def decodeDecByte : List Byte → Except DecodeError Instr
  | d :: _ => .ok (.decByte d)
  | [] => .error (.truncated 3)

/-- `ACC_UPDATE`: the instance index and the raw sample (R70). -/
def decodeAccUpdate : List Byte → Except DecodeError Instr
  | k :: d :: _ => .ok (.accUpdate (k.setWidth 4) d)
  | _ => .error (.truncated 7)

/-- `ACC_LOAD`: the instance index, the previous sample and the total (R70). -/
def decodeAccLoad : List Byte → Except DecodeError Instr
  | k :: d :: c =>
    match wideValue c with
    | some v => .ok (.accLoad (k.setWidth 4) d v)
    | none => .error (.truncated 8)
  | _ => .error (.truncated 8)

/-- The operation a 4-bit code selects, with its operands taken from the bytes behind it: "every code selects one
operation, with no sub-function field, no mode bit and no prefix" (R70). -/
def decodeOp (op : Nat) (operands : List Byte) : Except DecodeError Instr :=
  match op with
  | 0x0 => .ok .nop
  | 0x1 => .ok .reset
  | 0x2 => decodeEnc operands
  | 0x3 => decodeDecByte operands
  | 0x4 => .ok .decTick
  | 0x5 => .ok .decArm
  | 0x6 => .ok .decAbort
  | 0x7 => decodeAccUpdate operands
  | 0x8 => decodeAccLoad operands
  | 0x9 => .ok .reserved9
  | 0xA => .ok .reservedA
  | 0xB => .ok .reservedB
  | 0xC => .ok .reservedC
  | 0xD => .ok .reservedD
  | 0xE => .ok .reservedE
  | 0xF => .ok .reservedF
  | _ => .error (.notARequest (BitVec.ofNat 8 op))

/-- A wire frame behind its sync byte: the length byte `L`, `L` body bytes, the checksum byte (R72, R76). -/
def decodeFrame : List Byte → Except DecodeError Instr
  | l :: bytes =>
    match splitBytes l.toNat bytes with
    | some (body, cs :: _) => .ok (.frame body cs)
    | _ => .error (.truncated Config.sync)
  | [] => .error (.truncated Config.sync)

/-- The operation a request stands for, or the reason it stands for none. -/
def decode : List Byte → Except DecodeError Instr
  | [] => .error .empty
  | lead :: operands => if lead = Config.sync then decodeFrame operands else decodeOp lead.toNat operands

/-- The bytes of a wire frame with the given body and checksum byte, in transmission order (R53, R72). -/
def wireFrame (body : List Byte) (cs : Byte) : List Byte :=
  Config.sync :: BitVec.ofNat 8 body.length :: (body ++ [cs])

/-- The request that asks for an operation (R70, R72; the layout above). -/
def encode : Instr → List Byte
  | .nop => [0x0]
  | .reset => [0x1]
  | .enc t p => 0x2 :: t :: BitVec.ofNat 8 p.length :: p
  | .decByte d => [0x3, d]
  | .decTick => [0x4]
  | .decArm => [0x5]
  | .decAbort => [0x6]
  | .accUpdate k d => [0x7, k.setWidth 8, d]
  | .accLoad k d c => 0x8 :: k.setWidth 8 :: d :: wideBytes c.log2 c
  | .reserved9 => [0x9]
  | .reservedA => [0xA]
  | .reservedB => [0xB]
  | .reservedC => [0xC]
  | .reservedD => [0xD]
  | .reservedE => [0xE]
  | .reservedF => [0xF]
  | .frame body cs => wireFrame body cs

/-- The 4-bit operation code of an operation (R70); the wire frame is no operation of the block and has none. -/
def Instr.opCode : Instr → Option (BitVec 4)
  | .nop => some 0x0
  | .reset => some 0x1
  | .enc _ _ => some 0x2
  | .decByte _ => some 0x3
  | .decTick => some 0x4
  | .decArm => some 0x5
  | .decAbort => some 0x6
  | .accUpdate _ _ => some 0x7
  | .accLoad _ _ _ => some 0x8
  | .reserved9 => some 0x9
  | .reservedA => some 0xA
  | .reservedB => some 0xB
  | .reservedC => some 0xC
  | .reservedD => some 0xD
  | .reservedE => some 0xE
  | .reservedF => some 0xF
  | .frame _ _ => none

/-- The bytes of the longest request whose length the encoding bounds: a wire frame or an `ENC` (R73). -/
def longestRequest : Nat := 258

/-- An operation given as a number, bit 0 the least significant bit of the first byte, as the request the block
fetches; every bit above `nbits` is 0. -/
def wordRequest (nbits w : Nat) : List Byte :=
  leBytes ((nbits + 7) / 8 + longestRequest) (w % 2 ^ nbits)

/-- The operation the decoder reads from a word of the operation table. -/
def decodeTableWord (nbits w : Nat) : Option Instr :=
  match decode (wordRequest nbits w) with
  | .ok i => some i
  | .error _ => none

end Sys2Proof
end

