-- ==== Sys2Proof/Machine/State.lean ====
section
/-! DEFINITION. Everything the spec gives the block (`10_state.md` R20), the results an operation returns
(R16, R33), the ways a step can stop, and the state after reset (R39). -/

namespace Sys2Proof.Machine

/-- The decoder's position in a frame between two operations (R22). The source's fourth state `DONE` is never held
between operations, and R22 lets a model leave it out (log 12). -/
inductive RxState where
  /-- No byte of a frame taken. -/
  | awaitSync
  /-- The sync byte taken, the length byte awaited. -/
  | readLength
  /-- The length byte taken; body bytes and then the checksum byte awaited. -/
  | readBody
deriving DecidableEq, Repr

/-- The four error kinds (R160). -/
inductive ErrorKind where
  | missingSync
  | badChecksum
  | packetSizeExceeded
  | timeoutMidMessage
deriving DecidableEq, Repr

/-- What an operation returns (R16, R33). -/
inductive Result where
  /-- `PENDING`: the operation produced no outcome. -/
  | pending
  /-- `DECODED`: the length byte, the body, and the view `out_type` (the first body byte, or a free value when
  the body is empty: R120). -/
  | decoded (outLen : Byte) (outBody : List Byte) (outType : Byte)
  /-- `NO_MESSAGE`: the countdown lapsed with nothing accumulated. -/
  | noMessage
  /-- `DATA` after `ENC`: `ENCODED(bytes)`. -/
  | encoded (bytes : List Byte)
  /-- `DATA` after `ACC_UPDATE` and `ACC_LOAD`: `ACC(prev, cum)`. -/
  | acc (prev : Byte) (cum : Nat)
  /-- `ERROR(kind)`. -/
  | error (kind : ErrorKind)
deriving DecidableEq, Repr

/-- The registers of one accumulator instance (R29, R30). -/
structure Acc where
  /-- `acc_prev[k]`, the previous raw sample. -/
  prev : Byte
  /-- `acc_cum[k]`, the cumulative total, below `2^ACC_W`. -/
  cum : Nat
deriving DecidableEq, Repr

/-- A byte memory as a list of (index, byte) pairs in one canonical form: `Memory.wf` of `Machine/Ops.lean`. -/
abbrev Memory := List Host.Cell

/-- The state of one block (R20), the parameters it was built with (R7), and three fields of the model's own:
`pending`, `results`, `draws`. -/
structure State where
  /-- The parameters: no operation changes them (R34; log 1). -/
  cfg : Params
  /-- `rx_state` (R22). -/
  rxState : RxState
  /-- `rx_cnt`, the fill count (R23). -/
  rxCnt : Nat
  /-- `rx_len`, the length byte of the current frame (R24). -/
  rxLen : Byte
  /-- `rx_xor`, the running checksum (R25). -/
  rxXor : Byte
  /-- `rx_timer`, the countdown in ticks; 0 means stopped (R26). -/
  rxTimer : Nat
  /-- `rx_buf`, the frame buffer, indexed by wire offset (R27). -/
  rxBuf : Memory
  /-- `acc_prev[k]` and `acc_cum[k]`, `0 <= k < N_ACC` (R29, R30). -/
  acc : List Acc
  /-- MODEL'S OWN (log 5): the requests the host has issued and the block has not run, oldest first (R8, R9). -/
  pending : List (List Byte)
  /-- MODEL'S OWN (log 7): what the most recent step returned (R16): one result for an operation, one for each
  byte of a `FRAME`, none when the host asked nothing. -/
  results : List Result
  /-- MODEL'S OWN (log 8): how many free values have been drawn (U2). -/
  draws : Nat
deriving DecidableEq, Repr

/-- Why the machine stops with a fault. The block has no fault of its own (R168). -/
inductive Fault where
  /-- Raised by `storeByte` for an index outside `0..CAP-1`, which does not exist (R50, R60). Safe: R50 says such a store
  cannot happen, and no state with valid parameters raises it (log 16). -/
  | noSuchBufferByte (index : Nat)
deriving DecidableEq, Repr

/-- Why an operation has no meaning. All are safe: no claim can be proved of a run that contains one. -/
inductive Refusal where
  /-- Raised by `exec` for an operation that has no meaning yet. -/
  | notModelled (mnemonic : String)
  /-- Raised by `ENC` for a payload longer than `MAX_PAYLOAD` (R103, U1). -/
  | payloadTooLong (n : Nat)
  /-- Raised by `ACC_UPDATE` and `ACC_LOAD` for an instance that does not exist (R143, U5). -/
  | noSuchAccumulator (k : BitVec 4)
  /-- Raised by the reserved codes `0x9` to `0xF` (R152, U3). -/
  | reservedCode (op : BitVec 4)
  /-- Raised by `step` for a request that is no encoding of an operation (log 3). -/
  | undecodable (why : DecodeError)
deriving DecidableEq, Repr

/-- The state after power-on of a block with parameters `p` (R39). `rx_buf` is unspecified: nothing is listed (log 9). -/
def State.resetWith (p : Params) : State where
  cfg := p
  rxState := .awaitSync
  rxCnt := 0
  rxLen := 0x00#8
  rxXor := 0x00#8
  rxTimer := 0
  rxBuf := []
  acc := List.replicate p.nAcc { prev := 0x00#8, cum := 0 }
  pending := []
  results := []
  draws := 0

/-- The state after power-on (R39), for the parameters of the spec's test vectors (log 1). -/
def State.reset : State := State.resetWith Params.ofVectors

end Sys2Proof.Machine
end

