-- ==== Sys2Proof/Machine/Flags.lean ====
section
/-! DEFINITION. The block has no condition codes or status flags (`10_state.md` R33); what stands in their place is the
result code `res` of three bits and the views of a result's fields. -/

namespace Sys2Proof.Machine

/-- The two-bit encoding of `rx_state` (R22); 3 names `DONE` and is never held. -/
def RxState.code : RxState → BitVec 2
  | .awaitSync => 0
  | .readLength => 1
  | .readBody => 2

/-- The code of an error kind (R33, R161). -/
def ErrorKind.code : ErrorKind → BitVec 3
  | .missingSync => 4
  | .badChecksum => 5
  | .packetSizeExceeded => 6
  | .timeoutMidMessage => 7

/-- The framing errors of R163; `TimeoutMidMessage` is a timeout condition. -/
def ErrorKind.isFraming : ErrorKind → Bool
  | .missingSync => true
  | .badChecksum => true
  | .packetSizeExceeded => true
  | .timeoutMidMessage => false

/-- The result code `res` (R33). -/
def Result.code : Result → BitVec 3
  | .pending => 0
  | .decoded _ _ _ => 1
  | .noMessage => 2
  | .encoded _ => 3
  | .acc _ _ => 3
  | .error k => k.code

/-- "bit 2 of `res` set means an error kind" (R33). -/
def Result.isError (r : Result) : Bool := r.code.getLsbD 2

/-- An outcome is a result other than `PENDING` (R19). -/
def Result.isOutcome : Result → Bool
  | .pending => false
  | .decoded _ _ _ => true
  | .noMessage => true
  | .encoded _ => true
  | .acc _ _ => true
  | .error _ => true

/-- The view `out_payload = out_body[1..L-1]` of a decoded frame, empty when `L = 0` (R33, R120). -/
def Result.outPayload : Result → Option (List Byte)
  | .decoded _ body _ => some body.tail
  | .pending => none
  | .noMessage => none
  | .encoded _ => none
  | .acc _ _ => none
  | .error _ => none

end Sys2Proof.Machine
end

