-- ==== Sys2Proof/Machine/Operands.lean ====
section
/-! DEFINITION. The operand forms: payload bound, accumulator index, total (`30_encoding.md` R71). -/

namespace Sys2Proof.Machine

/-- `MAX_PAYLOAD = min(254, CAP - 4)` (R7, R103). -/
def maxPayload (p : Params) : Nat := min 254 (p.cap - 4)

/-- The precondition of `ENC` on its payload length (R103). -/
abbrev payloadAllowed (p : Params) (n : Nat) : Prop := n ≤ maxPayload p

/-- The registers of instance `k`, if the block has such an instance (R143). -/
def accAt (k : BitVec 4) (s : State) : Option Acc := s.acc[k.toNat]?

/-- The operand `c[ACC_W-1:0]` (R70): the field has `ACC_W` bits, so of a wider number only those count.
DESIGN CHOICE (log 15). -/
def cumOperand (p : Params) (c : Nat) : Nat := c % 2 ^ p.accW

end Sys2Proof.Machine
end

