-- ==== Sys2Proof/Machine/Ops.lean ====
section
/-! DEFINITION. The named operations the meanings are made of: the buffer as a memory, the checksum, the registers,
returning a result, and raising an error. -/

namespace Sys2Proof.Machine

/-! ### Sequencing -/

/-- What a step ends in. -/
abbrev StepResult := Host.Outcome State Fault Refusal

/-- Goes on with the next state, if there is one. -/
def andThen (o : StepResult) (f : State → StepResult) : StepResult :=
  match o with
  | .next s => f s
  | .fault r => .fault r
  | .refused r => .refused r

/-- The next state of an outcome, if it is one. -/
def nextState : StepResult → Option State
  | .next s => some s
  | .fault _ => none
  | .refused _ => none

/-- The reason of a refusal, if it is one. -/
def refusalOf : StepResult → Option Refusal
  | .next _ => none
  | .fault _ => none
  | .refused r => some r

/-! ### The frame buffer as a memory (`20_memory.md` R50) -/

/-- The canonical form: indices strictly rise. An unlisted index reads as no value, so no entry can equal what an
unlisted index reads as. -/
abbrev Memory.wf (m : Memory) : Prop := m.Pairwise (fun x y => x.1 < y.1)

/-- What an unlisted index reads as: no value, because the contents after power-on are unspecified (R39; log 9). -/
def Memory.unlisted : Option Byte := none

/-- The byte at an index. -/
def Memory.read : Memory → Nat → Option Byte
  | [], _ => Memory.unlisted
  | (a, v) :: m, i => if i = a then some v else Memory.read m i

/-- Stores a byte at an index, keeping the canonical form. -/
def Memory.write : Memory → Nat → Byte → Memory
  | [], i, v => [(i, v)]
  | (a, w) :: m, i, v =>
    if i < a then (i, v) :: (a, w) :: m
    else if i = a then (i, v) :: m
    else (a, w) :: Memory.write m i v

/-- `MemRead(i, 1)` (R15): the byte of `rx_buf` at index `i`; a byte nothing has written holds an unspecified value
(U4; log 9). -/
def bufByte (s : State) (i : Nat) : Byte := (s.rxBuf.read i).getD (Config.unwrittenByte i)

/-- `MemWrite(i, 1, v)` (R15). An index outside `0..CAP-1` does not exist (R50; log 16). -/
def storeByte (i : Nat) (v : Byte) (s : State) : StepResult :=
  if i < s.cfg.cap then .next { s with rxBuf := s.rxBuf.write i v } else .fault (.noSuchBufferByte i)

/-! ### The checksum (`30_encoding.md` R74) and the wire frame (R72) -/

/-- `xor_all`, the exclusive-or of all bytes of a sequence (R12). -/
def xorAll : List Byte → Byte
  | [] => 0x00#8
  | b :: bs => b ^^^ xorAll bs

/-- The checksum of a frame with the given body: the exclusive-or of every byte from `SYNC` through the last body
byte (R74). -/
def frameChecksum (body : List Byte) : Byte := xorAll (Config.sync :: BitVec.ofNat 8 body.length :: body)

/-- `head ++ [cs]` of R100: the wire frame of a message type and a payload. -/
def encodeFrame (t : Byte) (p : List Byte) : List Byte :=
  let head := [Config.sync, BitVec.ofNat 8 (p.length + 1), t] ++ p
  head ++ [xorAll head]

/-- A well-formed frame (R75): at least four bytes, the sync byte, a length byte that is at least 1 and matches, and
the right checksum. -/
abbrev IsFrame (f : List Byte) : Prop :=
  4 ≤ f.length ∧ f[0]? = some Config.sync ∧
    (∃ l, f[1]? = some l ∧ 1 ≤ l.toNat ∧ f.length = l.toNat + 3) ∧
    f[f.length - 1]? = some (xorAll (f.take (f.length - 1)))

/-! ### Registers -/

/-- `ResetParse()` (R18): it writes neither `rx_buf` nor `rx_timer`. -/
def resetParse (s : State) : State :=
  { s with rxState := .awaitSync, rxCnt := 0, rxLen := 0x00#8, rxXor := 0x00#8 }

/-- `rx_timer <- v` (R126). -/
def setTimer (v : Nat) (s : State) : State := { s with rxTimer := v }

/-- `acc_prev[k] <- a.prev`, `acc_cum[k] <- a.cum` (R14). -/
def setAcc (k : BitVec 4) (a : Acc) (s : State) : State := { s with acc := s.acc.set k.toNat a }

/-- Every register to its reset value (R151); `rx_buf` is not written. -/
def resetRegisters (s : State) : State :=
  { setTimer 0 (resetParse s) with acc := List.replicate s.cfg.nAcc { prev := 0x00#8, cum := 0 } }

/-! ### Results and errors -/

/-- The operation ends with result `r` (R16). -/
def reply (r : Result) (s : State) : StepResult := .next { s with results := [r] }

/-- The state change that goes with an error of a kind (the column "state change" of R161; the timer's part is written
by the operation that raises it). -/
def errorState (k : ErrorKind) (s : State) : State :=
  match k with
  | .missingSync => s
  | .badChecksum => resetParse s
  | .packetSizeExceeded => resetParse s
  | .timeoutMidMessage => resetParse s

/-- `raise <kind>` (R16): TAKING AN EXCEPTION, the one operation for all four kinds. It makes the state change of R161, is
returned as the result, "and does nothing else": nothing is saved, no handler, no mode (R168).
There is no return operation and nothing to restore (R169): the next operation runs from the state left here. -/
def raiseError (k : ErrorKind) (s : State) : StepResult := reply (.error k) (errorState k s)

/-- No meaning: a reserved operation code (R152, U3). -/
def refuseReserved (op : BitVec 4) : StepResult := .refused (.reservedCode op)

/-! ### Fetching a request (`00_scope.md` R9) -/

/-- The oldest request the host has issued, and the state without it. -/
def takeRequest (s : State) : Option (List Byte × State) :=
  match s.pending with
  | [] => none
  | r :: rest => some (r, { s with pending := rest })

/-- The host asks nothing: no operation runs, nothing is returned (R150). DESIGN CHOICE (log 6). -/
def idle (s : State) : State := { s with results := [] }

end Sys2Proof.Machine
end

