-- ==== Sys2Proof/Machine/Accumulator.lean ====
section
/-! DEFINITION. The rollover accumulator (`42_accumulator.md`). -/

namespace Sys2Proof.Machine

/-- `delta = (raw - previous) mod 256`, by 8-bit unsigned wraparound subtraction (R140, R141 (f)). -/
def rolloverDelta (raw prev : Byte) : Nat := (raw - prev).toNat

/-- The pure function `update(raw, (previous, cumulative))` at width `w` (R144). -/
def rolloverUpdate (w : Nat) (raw : Byte) (a : Acc) : Acc :=
  { prev := raw, cum := (a.cum + rolloverDelta raw a.prev) % 2 ^ w }

/-- Replaces the pair of instance `k` and returns it: `ACC(prev, cum)` (R140, R142). An instance that does not exist is
refused (R143, U5). -/
def updateAcc (k : BitVec 4) (f : Acc → Acc) (s : State) : StepResult :=
  match accAt k s with
  | some a => reply (.acc (f a).prev (f a).cum) (setAcc k (f a) s)
  | none => .refused (.noSuchAccumulator k)

/-- `ACC_UPDATE k, raw` (R140). -/
def execAccUpdate (k : BitVec 4) (raw : Byte) (s : State) : StepResult :=
  updateAcc k (rolloverUpdate s.cfg.accW raw) s

/-- `ACC_LOAD k, prev, cum` (R142). -/
def execAccLoad (k : BitVec 4) (prev : Byte) (c : Nat) (s : State) : StepResult :=
  updateAcc k (fun _ => { prev := prev, cum := cumOperand s.cfg c }) s

end Sys2Proof.Machine
end

