-- ==== Sys2Proof/Machine/Control.lean ====
section
/-! DEFINITION. `NOP`, `RESET` and the reserved codes (`43_control.md`). -/

namespace Sys2Proof.Machine

/-- `NOP` (R150): no register is read or written. -/
def execNop (s : State) : StepResult := reply .pending s

/-- `RESET` (R151): every register to its reset value. -/
def execReset (s : State) : StepResult := reply .pending (resetRegisters s)

/-- Operation code `0x9` (R152). -/
def execReserved9 (_ : State) : StepResult := refuseReserved 0x9

/-- Operation code `0xA` (R152). -/
def execReservedA (_ : State) : StepResult := refuseReserved 0xA

/-- Operation code `0xB` (R152). -/
def execReservedB (_ : State) : StepResult := refuseReserved 0xB

/-- Operation code `0xC` (R152). -/
def execReservedC (_ : State) : StepResult := refuseReserved 0xC

/-- Operation code `0xD` (R152). -/
def execReservedD (_ : State) : StepResult := refuseReserved 0xD

/-- Operation code `0xE` (R152). -/
def execReservedE (_ : State) : StepResult := refuseReserved 0xE

/-- Operation code `0xF` (R152). -/
def execReservedF (_ : State) : StepResult := refuseReserved 0xF

end Sys2Proof.Machine
end

