-- ==== Sys2Proof/Machine/Decoder.lean ====
section
/-! DEFINITION. The decoder (`41_decoder.md`): `DEC_BYTE`, `DEC_TICK`, `DEC_ARM`, `DEC_ABORT`. -/

namespace Sys2Proof.Machine

/-! ### `DEC_BYTE` (R110) -/

/-- The seven arms of R110, each named by its rule. -/
inductive ByteArm where
  /-- R112: not the sync value where a frame should start. -/
  | missingSync
  /-- R113: the sync byte. -/
  | beginFrame
  /-- R114: the length byte. -/
  | takeLength
  /-- R115: the byte does not fit the buffer. -/
  | tooLong
  /-- R116: a body byte. -/
  | takeBody
  /-- R117: the checksum byte, and it matches. -/
  | accept
  /-- R118: the checksum byte, and it does not match. -/
  | badChecksum
deriving DecidableEq, Repr

/-- Which arm of R110 a byte takes. The capacity test comes before the others (R166); the sums are over the integers
(R73). The last case is R110's own `else`: with the invariant R28 (d) it is `rx_cnt = rx_len + 2` (log 18). -/
def byteArm (d : Byte) (s : State) : ByteArm :=
  match s.rxState with
  | .awaitSync => if d ≠ Config.sync then .missingSync else .beginFrame
  | .readLength => .takeLength
  | .readBody =>
    if s.rxCnt + 1 > s.cfg.cap then .tooLong
    else if s.rxCnt < s.rxLen.toNat + 2 then .takeBody
    else if d = s.rxXor then .accept
    else .badChecksum

/-- The index of `rx_buf` an arm stores the byte to, if it stores it (R113, R114, R116; R50). -/
def storeIndex (arm : ByteArm) (s : State) : Option Nat :=
  match arm with
  | .beginFrame => some 0
  | .takeLength => some 1
  | .takeBody => some s.rxCnt
  | .missingSync => none
  | .tooLong => none
  | .accept => none
  | .badChecksum => none

/-- Stores the byte where its arm says. -/
def storeTaken (arm : ByteArm) (d : Byte) (s : State) : StepResult :=
  match storeIndex arm s with
  | some i => storeByte i d s
  | none => .next s

/-- The body of the frame in the buffer, `rx_buf[2 .. L+1]` (R117). -/
def frameBody (s : State) : List Byte := (List.range s.rxLen.toNat).map (fun i => bufByte s (i + 2))

/-- R117: the frame leaves in the result, and the parse state is reset in the same step. `out_type` is the first body
byte; of an empty body it is a free value, drawn now (R120, U2; log 8). -/
def deliver (s : State) : StepResult :=
  match frameBody s with
  | t :: rest => reply (.decoded s.rxLen (t :: rest) t) (resetParse s)
  | [] => reply (.decoded s.rxLen [] (Config.freeOutType s.draws)) (resetParse { s with draws := s.draws + 1 })

/-- The register writes and the result of an arm, after the store. -/
def finishByte (arm : ByteArm) (d : Byte) (s : State) : StepResult :=
  match arm with
  | .missingSync => raiseError .missingSync s
  | .beginFrame => reply .pending { s with rxCnt := 1, rxXor := d, rxState := .readLength }
  | .takeLength => reply .pending { s with rxCnt := 2, rxLen := d, rxXor := s.rxXor ^^^ d, rxState := .readBody }
  | .tooLong => raiseError .packetSizeExceeded s
  | .takeBody => reply .pending { s with rxCnt := s.rxCnt + 1, rxXor := s.rxXor ^^^ d }
  | .accept => deliver s
  | .badChecksum => raiseError .badChecksum s

/-- `DEC_BYTE d` (R110): the countdown is reloaded whatever the result (R126), then the arm is run. -/
def execDecByte (d : Byte) (s : State) : StepResult :=
  let armed := setTimer s.cfg.tByte s
  let arm := byteArm d armed
  andThen (storeTaken arm d armed) (finishByte arm d)

/-! ### `DEC_TICK`, `DEC_ARM`, `DEC_ABORT` -/

/-- The countdown lapses: the last arm of R123, with R124 when nothing is accumulated and R125 in mid-frame. -/
def lapse (s : State) : StepResult :=
  if s.rxCnt = 0 then reply .noMessage (setTimer 0 s) else raiseError .timeoutMidMessage (setTimer 0 s)

/-- `DEC_TICK` (R123). -/
def execDecTick (s : State) : StepResult :=
  if s.rxTimer = 0 then reply .pending s
  else if s.rxTimer > 1 then reply .pending (setTimer (s.rxTimer - 1) s)
  else lapse s

/-- `DEC_ARM` (R127). -/
def execDecArm (s : State) : StepResult := reply .pending (setTimer s.cfg.tByte s)

/-- `DEC_ABORT` (R128). -/
def execDecAbort (s : State) : StepResult := reply .pending (setTimer 0 (resetParse s))

/-! ### The wire frame (`30_encoding.md` R72, R83) -/

/-- `FEED b0 b1 ... bm` (R83): the bytes go to the decoder one by one; the result is the list of their results. -/
def feedBytes : List Byte → State → StepResult
  | [], s => .next { s with results := [] }
  | b :: bs, s =>
    andThen (execDecByte b s) fun s1 =>
      andThen (feedBytes bs s1) fun s2 => .next { s2 with results := s1.results ++ s2.results }

/-- `FRAME`: the wire frame arrives, each byte by one `DEC_BYTE`, in wire order (R53, R72, R121).
DESIGN CHOICE (log 4): the row is no operation of the block; as an instruction it is the `FEED` of its bytes, in one step. -/
def execFrame (body : List Byte) (cs : Byte) (s : State) : StepResult := feedBytes (wireFrame body cs) s

end Sys2Proof.Machine
end

