-- ==== Sys2Proof/Machine/Encoder.lean ====
section
/-! DEFINITION. The encoder (`40_encoder.md`). -/

namespace Sys2Proof.Machine

/-- `ENC t, [p]` (R100): the wire frame as the result; no register is read and none written (R37). A payload longer than
`MAX_PAYLOAD` breaks the precondition and is refused (R103, U1). -/
def execEnc (t : Byte) (p : List Byte) (s : State) : StepResult :=
  if payloadAllowed s.cfg p.length then reply (.encoded (encodeFrame t p)) s
  else .refused (.payloadTooLong p.length)

end Sys2Proof.Machine
end

