-- ==== Sys2Proof/Machine/Dispatch.lean ====
section
/-! DEFINITION. The meaning of each constructor of `Instr`, one arm each. -/

namespace Sys2Proof.Machine

def exec (i : Instr) (s : State) : Host.Outcome State Fault Refusal :=
  match i with
  | .nop => Sys2Proof.Machine.execNop s
  | .reset => Sys2Proof.Machine.execReset s
  | .enc t p => Sys2Proof.Machine.execEnc t p s
  | .decByte d => Sys2Proof.Machine.execDecByte d s
  | .decTick => Sys2Proof.Machine.execDecTick s
  | .decArm => Sys2Proof.Machine.execDecArm s
  | .decAbort => Sys2Proof.Machine.execDecAbort s
  | .accUpdate k d => Sys2Proof.Machine.execAccUpdate k d s
  | .accLoad k d c => Sys2Proof.Machine.execAccLoad k d c s
  | .reserved9 => Sys2Proof.Machine.execReserved9 s
  | .reservedA => Sys2Proof.Machine.execReservedA s
  | .reservedB => Sys2Proof.Machine.execReservedB s
  | .reservedC => Sys2Proof.Machine.execReservedC s
  | .reservedD => Sys2Proof.Machine.execReservedD s
  | .reservedE => Sys2Proof.Machine.execReservedE s
  | .reservedF => Sys2Proof.Machine.execReservedF s
  | .frame body cs => Sys2Proof.Machine.execFrame body cs s

end Sys2Proof.Machine
end

