-- ==== Sys2Proof/Machine/Step.lean ====
section
/-! DEFINITION. One step: the oldest request is fetched, decoded and run (`00_scope.md` R9). -/

namespace Sys2Proof.Machine

/-- One step. With no request the block is idle (log 6); a request that is no encoding is refused (log 3). -/
def step (s : State) : Host.Outcome State Fault Refusal :=
  match takeRequest s with
  | none => .next (idle s)
  | some (request, s') =>
    match decode request with
    | .ok i => exec i s'
    | .error why => .refused (.undecodable why)

/-- The operation given as a word of the operation table becomes the oldest request (log 5). -/
def State.withFetchWord (s : State) (nbits w : Nat) : State :=
  { s with pending := wordRequest nbits w :: s.pending }

end Sys2Proof.Machine
end

