-- ==== Sys2Proof/Machine/Pseudo.lean ====
section
/-! DEFINITION. The host's notation and procedures over the operations: programs (`30_encoding.md` R82), `FEED`, `WAIT`
and `SEND` (R83), the read attempt `decode_next` (`41_decoder.md` R129) and the time-free event `LAPSE` (R130). The block
knows none of them; they are here so that claims about sequences of operations can be stated. -/

namespace Sys2Proof.Machine

/-- A program: operations executed top to bottom (R82). Its results are those of its operations, in order. -/
def runProgram : List Instr → State → StepResult
  | [], s => .next { s with results := [] }
  | i :: is, s =>
    andThen (exec i s) fun s1 =>
      andThen (runProgram is s1) fun s2 => .next { s2 with results := s1.results ++ s2.results }

/-- `FEED b0 b1 ... bm` (R83). -/
def feed (bytes : List Byte) : List Instr := bytes.map .decByte

/-- `WAIT j` (R83). -/
def wait (j : Nat) : List Instr := List.replicate j .decTick

/-- Bytes with silence behind each: byte `b` and then `j` ticks, for each pair. -/
def feedSpaced (gaps : List (Byte × Nat)) : List Instr := gaps.flatMap (fun g => .decByte g.1 :: wait g.2)

/-- `SEND t, [p]` (R83): `ENC`, and the host writes the resulting bytes to the transmit stream `tx` in order (R102). The
stream is the host's, not state of the block (R35). -/
def send (t : Byte) (p : List Byte) (tx : List Byte) (s : State) : Option (List Byte × State) :=
  match nextState (exec (.enc t p) s) with
  | some s' =>
    match s'.results with
    | [.encoded bytes] => some (tx ++ bytes, s')
    | _ => none
  | none => none

/-- What the environment gives the host's loop: a received byte, or a tick of real time (R8, R129). -/
inductive ChannelEvent where
  | byte (d : Byte)
  | tick
deriving DecidableEq, Repr

/-- The operation the host issues for an event (R129). -/
def ChannelEvent.operation : ChannelEvent → Instr
  | .byte d => .decByte d
  | .tick => .decTick

/-- How a read attempt stands after the events given. -/
inductive ReadAttempt where
  /-- It returned the first outcome; the events behind it are still in the channel (R207). -/
  | returned (r : Result) (s : State) (rest : List ChannelEvent)
  /-- Every result so far was `PENDING`. -/
  | waiting (s : State)
  /-- An operation had no next state. -/
  | stopped
deriving Repr

/-- The loop of `decode_next` (R129). -/
def readLoop : List ChannelEvent → State → ReadAttempt
  | [], s => .waiting s
  | e :: es, s =>
    match exec e.operation s with
    | .next s' =>
      match s'.results with
      | [r] => if r = .pending then readLoop es s' else .returned r s' es
      | _ => .stopped
    | .fault _ => .stopped
    | .refused _ => .stopped

/-- `decode_next()`, the pseudo-operation `READ_ATTEMPT` (R83, R129): arm the countdown, then feed bytes and ticks until
the first result other than `PENDING`. -/
def decodeNext (events : List ChannelEvent) (s : State) : ReadAttempt :=
  match exec .decArm s with
  | .next s' => readLoop events s'
  | .fault _ => .stopped
  | .refused _ => .stopped

/-- The countdown forgotten but for armed or stopped: `rx_timer` down to one bit (R130). -/
def forgetCount (s : State) : State := setTimer (min 1 s.rxTimer) s

/-- The event `LAPSE` of the time-free reading, which the environment may fire whenever the countdown is armed (R130). -/
def execLapse (s : State) : Option StepResult := if 0 < s.rxTimer then some (lapse s) else none

end Sys2Proof.Machine
end

