-- ==== Sys2Proof/Safety.lean ====
section
/-! DEFINITION. What counts as a safe run: the invariants of `10_state.md` R28, the preconditions the host must meet
(`00_scope.md` R10), the families of operations (`30_encoding.md` R81), and which results an operation may return
(`10_state.md` R33). -/

namespace Sys2Proof.Machine

/-- The bytes of the current frame taken so far, `rx_buf[0 .. rx_cnt-1]` (R25, R27). -/
def takenBytes (s : State) : List Byte := (List.range s.rxCnt).map (bufByte s)

/-- The invariants of R28, and the form of the data: parameters in their ranges (R7), the buffer canonical and inside
`0..CAP-1` (R50), one pair of registers per accumulator instance, totals of `ACC_W` bits (R29, R30). -/
structure Inv (s : State) : Prop where
  params : s.cfg.Valid
  /-- R28 (a). -/
  awaitSync_iff : s.rxState = .awaitSync ↔ s.rxCnt = 0
  /-- R28 (a). -/
  readLength_iff : s.rxState = .readLength ↔ s.rxCnt = 1
  /-- R28 (a). -/
  readBody_iff : s.rxState = .readBody ↔ 2 ≤ s.rxCnt
  /-- R28 (b). -/
  fits : s.rxCnt ≤ s.cfg.cap
  /-- The bytes taken are in the buffer (R27). -/
  written : ∀ i, i < s.rxCnt → (s.rxBuf.read i).isSome = true
  /-- R28 (c), first half. -/
  syncFirst : 1 ≤ s.rxCnt → s.rxBuf.read 0 = some Config.sync
  /-- R28 (c), second half, and (e): with `rx_cnt = 0` the exclusive-or of no byte is `0x00`. -/
  checksum : s.rxXor = xorAll (takenBytes s)
  /-- R28 (d). -/
  lengthByte : 2 ≤ s.rxCnt → s.rxBuf.read 1 = some s.rxLen ∧ s.rxCnt ≤ s.rxLen.toNat + 2
  /-- R28 (e). -/
  noLength : s.rxCnt < 2 → s.rxLen = 0x00#8
  /-- R28 (f). -/
  timerBound : s.rxTimer ≤ s.cfg.tByte
  /-- R28 (g). -/
  timerLive : 0 < s.rxCnt → 0 < s.rxTimer
  bufForm : s.rxBuf.wf
  bufRange : ∀ c ∈ s.rxBuf, c.1 < s.cfg.cap
  accCount : s.acc.length = s.cfg.nAcc
  accWidth : ∀ a ∈ s.acc, a.cum < 2 ^ s.cfg.accW

end Sys2Proof.Machine

namespace Sys2Proof

open Sys2Proof.Machine

/-- The preconditions of an operation on the host (R10): the payload of `ENC` is allowed (R103), the instance of an
accumulator operation exists (R143), the code is not reserved (R152). Every other operation has none. -/
def Instr.Meets (i : Instr) (p : Params) : Prop :=
  match i with
  | .nop => True
  | .reset => True
  | .enc _ pl => payloadAllowed p pl.length
  | .decByte _ => True
  | .decTick => True
  | .decArm => True
  | .decAbort => True
  | .accUpdate k _ => k.toNat < p.nAcc
  | .accLoad k _ _ => k.toNat < p.nAcc
  | .reserved9 => False
  | .reservedA => False
  | .reservedB => False
  | .reservedC => False
  | .reservedD => False
  | .reservedE => False
  | .reservedF => False
  | .frame _ _ => True

/-- The operations of the decoder family (R81), and the wire frame, which is made of them. -/
def Instr.isDecoder : Instr → Bool
  | .decByte _ => true
  | .decTick => true
  | .decArm => true
  | .decAbort => true
  | .frame _ _ => true
  | .nop => false
  | .reset => false
  | .enc _ _ => false
  | .accUpdate _ _ => false
  | .accLoad _ _ _ => false
  | .reserved9 => false
  | .reservedA => false
  | .reservedB => false
  | .reservedC => false
  | .reservedD => false
  | .reservedE => false
  | .reservedF => false

/-- The instance an accumulator operation names (R81, R143). -/
def Instr.accIndex : Instr → Option (BitVec 4)
  | .accUpdate k _ => some k
  | .accLoad k _ _ => some k
  | .nop => none
  | .reset => none
  | .enc _ _ => none
  | .decByte _ => none
  | .decTick => none
  | .decArm => none
  | .decAbort => none
  | .reserved9 => none
  | .reservedA => none
  | .reservedB => none
  | .reservedC => none
  | .reservedD => none
  | .reservedE => none
  | .reservedF => none
  | .frame _ _ => none

/-- The column "returned by" of R33: whether an operation may return a result. A wire frame returns results of
`DEC_BYTE`. -/
def Instr.mayReturn (i : Instr) (r : Result) : Prop :=
  match i with
  | .nop => r = .pending
  | .reset => r = .pending
  | .decArm => r = .pending
  | .decAbort => r = .pending
  | .enc _ _ => ∃ bytes, r = .encoded bytes
  | .accUpdate _ _ => ∃ p c, r = .acc p c
  | .accLoad _ _ _ => ∃ p c, r = .acc p c
  | .decTick => r = .pending ∨ r = .noMessage ∨ r = .error .timeoutMidMessage
  | .decByte _ => r = .pending ∨ (∃ l b t, r = .decoded l b t) ∨ r = .error .missingSync ∨ r = .error .badChecksum ∨
      r = .error .packetSizeExceeded
  | .frame _ _ => r = .pending ∨ (∃ l b t, r = .decoded l b t) ∨ r = .error .missingSync ∨ r = .error .badChecksum ∨
      r = .error .packetSizeExceeded
  | .reserved9 => False
  | .reservedA => False
  | .reservedB => False
  | .reservedC => False
  | .reservedD => False
  | .reservedE => False
  | .reservedF => False

end Sys2Proof

namespace Sys2Proof.Machine

/-- The decoder's part of two states is the same (R62). -/
def SameDecoder (s t : State) : Prop :=
  t.rxState = s.rxState ∧ t.rxCnt = s.rxCnt ∧ t.rxLen = s.rxLen ∧ t.rxXor = s.rxXor ∧ t.rxTimer = s.rxTimer ∧
    t.rxBuf = s.rxBuf ∧ t.draws = s.draws

/-- Two states agree but for buffer bytes at an index `>= rx_cnt`, which are don't-care (R27, U4). -/
def AgreeOnFrame (s t : State) : Prop :=
  { s with rxBuf := [] } = { t with rxBuf := [] } ∧ ∀ i, i < s.rxCnt → s.rxBuf.read i = t.rxBuf.read i

/-- The state without its result port: what two orders of the same operations are compared on (R62). -/
def forgetResults (s : State) : State := { s with results := [] }

/-- The differences `d1, d2, ..., dm` of R145: each sample against the one before it, modulo 256. -/
def sampleDeltas : Byte → List Byte → List Nat
  | _, [] => []
  | prev, r :: rs => (r.toNat + 256 - prev.toNat) % 256 :: sampleDeltas r rs

/-- The view `out_type` of a decoded frame: the first body byte, and of an empty body the free value of the draw (R120). -/
def outType (body : List Byte) (draw : Nat) : Byte := body.headD (Config.freeOutType draw)

end Sys2Proof.Machine
end

