-- ==== Sys2Proof/Certificates/Slice0/Obligations.lean ====
section
/-! DEFINITION. The statements for the provers. Each docstring names the rule of `spec/` it formalises. A statement is about
every value of the open parameters: they are the field `cfg` of the state (log 1). Where a clause is the model's own
choice, the docstring says so and names the log entry. -/

open Sys2Proof Sys2Proof.Machine

/-! ### Control -/

/-- R150: `NOP` returns `PENDING`; no register is read or written, `rx_timer` does not move. -/
def Obligations.NopChangesNothing : Prop :=
  Instr.nop.opCode = some 0x0 ∧ ∀ s : State, exec .nop s = .next { s with results := [.pending] }

/-- R151: `RESET` writes every register, drops a partial frame silently, writes neither `rx_buf` nor anything else. -/
def Obligations.ResetWritesEveryRegister : Prop :=
  Instr.reset.opCode = some 0x1 ∧ ∀ s : State, exec .reset s =
    .next { s with
      rxState := .awaitSync, rxCnt := 0, rxLen := 0x00#8, rxXor := 0x00#8, rxTimer := 0,
      acc := List.replicate s.cfg.nAcc { prev := 0x00#8, cum := 0 },
      results := [.pending] }

/-- R39: the value of every register after power-on, for every choice of the parameters, and after `RESET`, with the
invariants of R28. `rx_buf` is unspecified, so nothing is said of it. -/
def Obligations.ResetValues : Prop :=
  (∀ p : Params,
    (State.resetWith p).rxState = .awaitSync ∧ (State.resetWith p).rxCnt = 0 ∧
    (State.resetWith p).rxLen = 0x00#8 ∧ (State.resetWith p).rxXor = 0x00#8 ∧ (State.resetWith p).rxTimer = 0 ∧
    (State.resetWith p).acc.length = p.nAcc ∧
    (∀ k, k < p.nAcc → (State.resetWith p).acc[k]? = some { prev := 0x00#8, cum := 0 }) ∧
    (p.Valid → Inv (State.resetWith p))) ∧
  ∀ s t : State, exec .reset s = .next t →
    t.rxState = .awaitSync ∧ t.rxCnt = 0 ∧ t.rxLen = 0x00#8 ∧ t.rxXor = 0x00#8 ∧ t.rxTimer = 0 ∧
    t.acc.length = s.cfg.nAcc ∧
    (∀ k, k < s.cfg.nAcc → t.acc[k]? = some { prev := 0x00#8, cum := 0 }) ∧
    (Inv s → Inv t)

/-- R152, U3: the reserved codes `0x9` to `0xF` are refused, in every state. -/
def Obligations.ReservedCodesRefused : Prop :=
  (Instr.reserved9.opCode = some 0x9 ∧ Instr.reservedA.opCode = some 0xA ∧ Instr.reservedB.opCode = some 0xB ∧
    Instr.reservedC.opCode = some 0xC ∧ Instr.reservedD.opCode = some 0xD ∧ Instr.reservedE.opCode = some 0xE ∧
    Instr.reservedF.opCode = some 0xF) ∧
  ∀ s : State,
    exec .reserved9 s = .refused (.reservedCode 0x9) ∧ exec .reservedA s = .refused (.reservedCode 0xA) ∧
    exec .reservedB s = .refused (.reservedCode 0xB) ∧ exec .reservedC s = .refused (.reservedCode 0xC) ∧
    exec .reservedD s = .refused (.reservedCode 0xD) ∧ exec .reservedE s = .refused (.reservedCode 0xE) ∧
    exec .reservedF s = .refused (.reservedCode 0xF)

/-! ### The encoder -/

/-- R100, R37: `ENC` returns the wire frame of its operands and touches no register. -/
def Obligations.EncReturnsWireFrame : Prop :=
  ∀ (t : Byte) (p : List Byte), (Instr.enc t p).opCode = some 0x2 ∧
    ∀ s : State, p.length ≤ min 254 (s.cfg.cap - 4) → exec (.enc t p) s =
      .next { s with results := [.encoded
        ([0xA4#8, BitVec.ofNat 8 (p.length + 1), t] ++ p ++
          [xorAll ([0xA4#8, BitVec.ofNat 8 (p.length + 1), t] ++ p)])] }

/-- R103: `ENC` with a payload longer than `MAX_PAYLOAD = min(254, CAP - 4)` is refused. -/
def Obligations.EncRefusesLongPayload : Prop :=
  ∀ (t : Byte) (p : List Byte) (s : State), min 254 (s.cfg.cap - 4) < p.length →
    exec (.enc t p) s = .refused (.payloadTooLong p.length)

/-- R105: the length law, the length byte, and injectivity of `ENC` on the payloads it accepts. -/
def Obligations.EncLengthAndInjective : Prop :=
  (∀ (t : Byte) (p : List Byte), p.length ≤ 254 →
    (encodeFrame t p).length = p.length + 4 ∧
    ∃ l, (encodeFrame t p)[1]? = some l ∧ l.toNat = p.length + 1) ∧
  ∀ (t t' : Byte) (p p' : List Byte), encodeFrame t p = encodeFrame t' p' → t = t' ∧ p = p'

/-- R75: the encoder produces exactly the well-formed frames whose payload length is at most `MAX_PAYLOAD`, and the type and
the payload are read back from offsets 2 and 3 onward. -/
def Obligations.EncMakesExactlyTheFrames : Prop :=
  (∀ (c : Params) (f : List Byte),
    (∃ t p, payloadAllowed c p.length ∧ encodeFrame t p = f) ↔ (IsFrame f ∧ f.length - 4 ≤ maxPayload c)) ∧
  ∀ (t : Byte) (p f : List Byte), encodeFrame t p = f → f[2]? = some t ∧ (f.drop 3).take (f.length - 4) = p

/-! ### `DEC_BYTE`: the rows of the transition table (R110, R111) -/

/-- R112: a byte that is not the sync value, in `AWAIT_SYNC`. Only the countdown changes (R126). -/
def Obligations.DecByteMissingSync : Prop :=
  ∀ (d : Byte) (s : State), s.rxState = .awaitSync → d ≠ 0xA4#8 →
    exec (.decByte d) s = .next { s with rxTimer := s.cfg.tByte, results := [.error .missingSync] }

/-- R113: the sync byte begins a frame. -/
def Obligations.DecByteBeginsFrame : Prop :=
  ∀ s : State, s.cfg.Valid → s.rxState = .awaitSync →
    exec (.decByte 0xA4#8) s =
      .next { s with
        rxTimer := s.cfg.tByte, rxBuf := s.rxBuf.write 0 0xA4#8, rxCnt := 1, rxXor := 0xA4#8,
        rxState := .readLength, results := [.pending] }

/-- R114: any byte is taken as the length byte; no value is rejected here. -/
def Obligations.DecByteTakesLength : Prop :=
  ∀ (d : Byte) (s : State), s.cfg.Valid → s.rxState = .readLength →
    exec (.decByte d) s =
      .next { s with
        rxTimer := s.cfg.tByte, rxBuf := s.rxBuf.write 1 d, rxCnt := 2, rxLen := d, rxXor := s.rxXor ^^^ d,
        rxState := .readBody, results := [.pending] }

/-- R115: a byte that does not fit drops the frame, whatever the byte and whatever the checksum. Of a frame with
`L + 3 > CAP` that is the byte of wire offset `CAP`, after `CAP` bytes with `PENDING`; the next one meets `AWAIT_SYNC`. -/
def Obligations.DecByteTooLong : Prop :=
  (∀ (d : Byte) (s : State), s.rxState = .readBody → s.rxCnt + 1 > s.cfg.cap →
    exec (.decByte d) s =
      .next { s with
        rxTimer := s.cfg.tByte, rxState := .awaitSync, rxCnt := 0, rxLen := 0x00#8, rxXor := 0x00#8,
        results := [.error .packetSizeExceeded] }) ∧
  ∀ (l d : Byte) (body : List Byte) (s : State), s.cfg.Valid → s.rxState = .awaitSync →
    body.length + 2 = s.cfg.cap → s.cfg.cap < l.toNat + 3 →
    ∃ t, runProgram (feed (0xA4#8 :: l :: (body ++ [d]))) s = .next t ∧
      t.results = List.replicate s.cfg.cap .pending ++ [.error .packetSizeExceeded] ∧
      t.rxState = .awaitSync ∧ t.rxCnt = 0

/-- R116: a body byte is stored at `rx_cnt` and folded into the checksum. -/
def Obligations.DecByteTakesBody : Prop :=
  ∀ (d : Byte) (s : State), s.rxState = .readBody → s.rxCnt + 1 ≤ s.cfg.cap → s.rxCnt < s.rxLen.toNat + 2 →
    exec (.decByte d) s =
      .next { s with
        rxTimer := s.cfg.tByte, rxBuf := s.rxBuf.write s.rxCnt d, rxCnt := s.rxCnt + 1, rxXor := s.rxXor ^^^ d,
        results := [.pending] }

/-- R117: the matching checksum byte delivers the frame and resets the parse state in the same step. With `L >= 1` the view
`out_type` is the first body byte (R33); with `L = 0` nothing is said of it here (R120). `draws` is the model's own field. -/
def Obligations.DecByteAcceptsFrame : Prop :=
  ∀ s : State, s.rxState = .readBody → s.rxCnt + 1 ≤ s.cfg.cap → s.rxCnt = s.rxLen.toNat + 2 →
    ∃ ty n,
      exec (.decByte s.rxXor) s =
        .next { s with
          rxTimer := s.cfg.tByte, rxState := .awaitSync, rxCnt := 0, rxLen := 0x00#8, rxXor := 0x00#8, draws := n,
          results := [.decoded s.rxLen ((List.range s.rxLen.toNat).map (fun i => bufByte s (i + 2))) ty] } ∧
      (1 ≤ s.rxLen.toNat → ty = bufByte s 2 ∧ n = s.draws)

/-- R120: with `L = 0` the body and `out_payload` are empty. That `out_type` is then the free value of this draw, and that the
counter of draws goes on by one, is the model's form of "it is a free value" (log 8). -/
def Obligations.DecByteAcceptsEmptyFrame : Prop :=
  ∀ s : State, s.rxState = .readBody → s.rxCnt + 1 ≤ s.cfg.cap → s.rxCnt = s.rxLen.toNat + 2 → s.rxLen.toNat = 0 →
    exec (.decByte s.rxXor) s =
      .next { s with
        rxTimer := s.cfg.tByte, rxState := .awaitSync, rxCnt := 0, rxLen := 0x00#8, rxXor := 0x00#8,
        draws := s.draws + 1, results := [.decoded 0x00#8 [] (Config.freeOutType s.draws)] } ∧
    (Result.decoded 0x00#8 [] (Config.freeOutType s.draws)).outPayload = some []

/-- R118: a checksum byte that does not match drops the frame. -/
def Obligations.DecByteBadChecksum : Prop :=
  ∀ (d : Byte) (s : State), s.rxState = .readBody → s.rxCnt + 1 ≤ s.cfg.cap → s.rxCnt = s.rxLen.toNat + 2 →
    d ≠ s.rxXor →
    exec (.decByte d) s =
      .next { s with
        rxTimer := s.cfg.tByte, rxState := .awaitSync, rxCnt := 0, rxLen := 0x00#8, rxXor := 0x00#8,
        results := [.error .badChecksum] }

/-- R166: the order of the tests. In `AWAIT_SYNC` only the sync test is made; in `READ_BODY` a byte that does not fit is
`PacketSizeExceeded` and nothing else; only a byte that fits and stands at `rx_cnt = rx_len + 2` is compared. The one test
of `DEC_TICK` separates `NO_MESSAGE` from `TimeoutMidMessage`. -/
def Obligations.ByteTestsInOrder : Prop :=
  (∀ (d : Byte) (s t : State), Inv s → exec (.decByte d) s = .next t →
    (s.rxState = .awaitSync → t.results = [.pending] ∨ t.results = [.error .missingSync]) ∧
    (s.rxState = .readBody → s.rxCnt + 1 > s.cfg.cap → t.results = [.error .packetSizeExceeded]) ∧
    ((t.results = [.error .badChecksum] ∨ ∃ l b ty, t.results = [.decoded l b ty]) →
      s.rxState = .readBody ∧ s.rxCnt + 1 ≤ s.cfg.cap ∧ s.rxCnt = s.rxLen.toNat + 2)) ∧
  ∀ s t : State, Inv s → exec .decTick s = .next t →
    (t.results = [.noMessage] → s.rxCnt = 0) ∧ (t.results = [.error .timeoutMidMessage] → 0 < s.rxCnt)

/-! ### `DEC_TICK`, `DEC_ARM`, `DEC_ABORT` -/

/-- R123, R124, R125: the four rows of `DEC_TICK`. -/
def Obligations.DecTickCountsDown : Prop :=
  Instr.decTick.opCode = some 0x4 ∧ ∀ s : State,
    (s.rxTimer = 0 → exec .decTick s = .next { s with results := [.pending] }) ∧
    (1 < s.rxTimer → exec .decTick s = .next { s with rxTimer := s.rxTimer - 1, results := [.pending] }) ∧
    (s.rxTimer = 1 → s.rxCnt = 0 → exec .decTick s = .next { s with rxTimer := 0, results := [.noMessage] }) ∧
    (s.rxTimer = 1 → 0 < s.rxCnt →
      exec .decTick s =
        .next { s with
          rxTimer := 0, rxState := .awaitSync, rxCnt := 0, rxLen := 0x00#8, rxXor := 0x00#8,
          results := [.error .timeoutMidMessage] })

/-- R127: `DEC_ARM` reloads the countdown and keeps the frame in progress. -/
def Obligations.DecArmReloadsOnly : Prop :=
  Instr.decArm.opCode = some 0x5 ∧ ∀ s : State, exec .decArm s = .next { s with rxTimer := s.cfg.tByte, results := [.pending] }

/-- R128: `DEC_ABORT` drops the partial frame, stops the countdown, leaves the decoder as `RESET` leaves it, and does not touch
the accumulators. -/
def Obligations.DecAbortDropsFrame : Prop :=
  Instr.decAbort.opCode = some 0x6 ∧
  (∀ s : State, exec .decAbort s =
    .next { s with
      rxTimer := 0, rxState := .awaitSync, rxCnt := 0, rxLen := 0x00#8, rxXor := 0x00#8, results := [.pending] }) ∧
  ∀ s t u : State, exec .decAbort s = .next t → exec .reset s = .next u → SameDecoder u t

/-- R126: who writes `rx_timer`, over all operations of R70; `ResetParse()` does not. And its consequence: after an outcome of
`DEC_BYTE` the countdown runs on, and the `T_BYTE`-th tick reports `NO_MESSAGE` once. -/
def Obligations.TimerWriters : Prop :=
  (∀ s : State, (resetParse s).rxTimer = s.rxTimer) ∧
  ∀ (i : Instr) (s t : State), exec i s = .next t →
    ((∃ d, i = .decByte d) ∨ i = .decArm → t.rxTimer = s.cfg.tByte) ∧
    (i = .decTick → t.rxTimer = s.rxTimer - 1) ∧
    (i = .decAbort ∨ i = .reset → t.rxTimer = 0) ∧
    (i = .nop ∨ (∃ ty p, i = .enc ty p) ∨ i.accIndex.isSome = true → t.rxTimer = s.rxTimer) ∧
    (Inv s → (∃ d, i = .decByte d) → t.results ≠ [.pending] →
      ∃ u, runProgram (wait s.cfg.tByte) t = .next u ∧
        u.results = List.replicate (s.cfg.tByte - 1) .pending ++ [.noMessage] ∧ u.rxTimer = 0)

/-- R132: after any outcome of `DEC_BYTE` or `DEC_TICK` the decoder is in `AWAIT_SYNC` with `rx_cnt = 0`. -/
def Obligations.OutcomeLeavesDecoderIdle : Prop :=
  ∀ (i : Instr) (s t : State), Inv s → ((∃ d, i = .decByte d) ∨ i = .decTick) → exec i s = .next t →
    t.results ≠ [.pending] → t.rxCnt = 0 ∧ t.rxState = .awaitSync

/-- R26, R123, R202: a countdown at `v > 0` lapses at the `v`-th tick and not before, is reported once, and a frame in
progress is dropped; a stopped one never lapses. -/
def Obligations.LapseAtTheLastTick : Prop :=
  ∀ s : State,
    (∀ v, s.rxTimer = v + 1 →
      ∃ t, runProgram (wait (v + 1)) s = .next t ∧
        t.results = List.replicate v .pending ++
          [if s.rxCnt = 0 then .noMessage else .error .timeoutMidMessage] ∧
        t.rxTimer = 0 ∧ t.rxCnt = 0 ∧
        (t.rxState = .awaitSync ∨ s.rxCnt = 0 ∧ t.rxState = s.rxState)) ∧
    (s.rxTimer = 0 → ∀ n, runProgram (wait n) s = .next { s with results := List.replicate n .pending })

/-! ### Sequences of bytes -/

/-- R121: from `AWAIT_SYNC`, consecutive bytes end in `DECODED(L, body)` at the last byte, with `PENDING` before it, exactly when
they are the frame of that `L` and that body and it fits the buffer. -/
def Obligations.AcceptanceLaw : Prop :=
  ∀ (s : State) (bytes : List Byte) (l : Byte) (body : List Byte), s.cfg.Valid → s.rxState = .awaitSync →
    ((∃ t ty, runProgram (feed bytes) s = .next t ∧
        t.results = List.replicate (bytes.length - 1) .pending ++ [.decoded l body ty]) ↔
     body.length = l.toNat ∧ l.toNat + 3 ≤ s.cfg.cap ∧
        bytes = 0xA4#8 :: l :: (body ++ [xorAll (0xA4#8 :: l :: body)]))

/-- R106: the bytes of an encoded frame, with fewer than `T_BYTE` ticks behind each byte but the last, decode to the
original type and payload, with `PENDING` for everything before the last byte. -/
def Obligations.RoundTripWithoutLapse : Prop :=
  ∀ (s : State) (ty : Byte) (p : List Byte) (gaps : List Nat) (last : Byte) (front : List Byte),
    s.cfg.Valid → s.rxState = .awaitSync → payloadAllowed s.cfg p.length →
    encodeFrame ty p = front ++ [last] → gaps.length = front.length → (∀ g ∈ gaps, g < s.cfg.tByte) →
    ∃ t, runProgram (feedSpaced (front.zip gaps) ++ [.decByte last]) s = .next t ∧
      t.results = List.replicate (front.length + gaps.sum) .pending ++
        [.decoded (BitVec.ofNat 8 (p.length + 1)) (ty :: p) ty] ∧
      t.rxState = .awaitSync ∧ t.rxCnt = 0

/-- R131: noise without the sync value costs one `MissingSync` a byte, leaves the decoder unchanged, and does not harm the
frame behind it. -/
def Obligations.SyncLossRecovery : Prop :=
  ∀ (s : State) (noise : List Byte) (ty : Byte) (p : List Byte),
    s.cfg.Valid → s.rxState = .awaitSync → s.rxCnt = 0 → (∀ b ∈ noise, b ≠ 0xA4#8) →
    payloadAllowed s.cfg p.length →
    (noise ≠ [] → runProgram (feed noise) s =
      .next { s with rxTimer := s.cfg.tByte, results := List.replicate noise.length (.error .missingSync) }) ∧
    ∃ t, runProgram (feed (noise ++ encodeFrame ty p)) s = .next t ∧
      t.results = List.replicate noise.length (.error .missingSync) ++ List.replicate (p.length + 3) .pending ++
        [.decoded (BitVec.ofNat 8 (p.length + 1)) (ty :: p) ty]

/-- R133: one flipped bit at wire offset 2 or later of an encoded frame gives `PENDING` for every byte but the last and
`BadChecksum` for the last. -/
def Obligations.SingleBitErrorCaught : Prop :=
  ∀ (s : State) (ty : Byte) (p : List Byte) (i bit : Nat) (b : Byte),
    s.cfg.Valid → s.rxState = .awaitSync → payloadAllowed s.cfg p.length →
    2 ≤ i → (encodeFrame ty p)[i]? = some b → bit < 8 →
    ∃ t, runProgram (feed ((encodeFrame ty p).set i (b ^^^ BitVec.ofNat 8 (2 ^ bit)))) s = .next t ∧
      t.results = List.replicate (p.length + 3) .pending ++ [.error .badChecksum] ∧
      t.rxState = .awaitSync ∧ t.rxCnt = 0

/-- R134: the same bit flipped in two body bytes is not seen: the frame is accepted with wrong contents. -/
def Obligations.DoubleErrorMissed : Prop :=
  ∀ (s : State) (body : List Byte) (i j bit : Nat) (x y : Byte),
    s.cfg.Valid → s.rxState = .awaitSync → body.length ≤ 255 → body.length + 3 ≤ s.cfg.cap →
    i ≠ j → body[i]? = some x → body[j]? = some y → bit < 8 →
    let wrong := (body.set i (x ^^^ BitVec.ofNat 8 (2 ^ bit))).set j (y ^^^ BitVec.ofNat 8 (2 ^ bit))
    wrong ≠ body ∧
    ∃ t ty, runProgram (feed (wireFrame wrong (frameChecksum body))) s = .next t ∧
      t.results = List.replicate (body.length + 2) .pending ++
        [.decoded (BitVec.ofNat 8 body.length) wrong ty]

/-! ### The wire frame -/

/-- R72, R83: `FRAME` is the `FEED` of its bytes. That the row is an instruction at all, run in one step, is the model's
choice (log 4). -/
def Obligations.FrameIsFeed : Prop :=
  ∀ (body : List Byte) (cs : Byte) (s : State),
    exec (.frame body cs) s = runProgram (feed (wireFrame body cs)) s

/-- `FRAME` completes in every state with valid parameters (log 4), returns one result a byte, writes only the decoder, and
stores nothing outside `0 .. CAP-1` (R50). -/
def Obligations.FrameCompletes : Prop :=
  ∀ (body : List Byte) (cs : Byte) (s : State), s.cfg.Valid →
    ∃ t, exec (.frame body cs) s = .next t ∧ t.results.length = body.length + 3 ∧
      t.cfg = s.cfg ∧ t.acc = s.acc ∧ t.pending = s.pending ∧ t.rxTimer = s.cfg.tByte ∧
      ∀ a, s.cfg.cap ≤ a → t.rxBuf.read a = s.rxBuf.read a

/-- R115, R117, R118, R120: what a wire frame that starts in `AWAIT_SYNC` gives: accepted, rejected for its checksum, or
dropped at the byte of offset `CAP`; and what it stores. That the frame is fed in one step (log 4), and that the checksum byte
is not stored (log 11), are the model's choices. -/
def Obligations.FrameFromIdle : Prop :=
  ∀ (body : List Byte) (cs : Byte) (s t : State), s.cfg.Valid → s.rxState = .awaitSync → body.length ≤ 255 →
    exec (.frame body cs) s = .next t →
    (body.length + 3 ≤ s.cfg.cap →
      t.results = List.replicate (body.length + 2) .pending ++
        [if cs = frameChecksum body then .decoded (BitVec.ofNat 8 body.length) body (outType body s.draws)
         else .error .badChecksum] ∧
      t.rxState = .awaitSync ∧ t.rxCnt = 0 ∧
      (∀ a, a < body.length + 2 → t.rxBuf.read a = (wireFrame body cs)[a]?) ∧
      ∀ a, body.length + 2 ≤ a → t.rxBuf.read a = s.rxBuf.read a) ∧
    (s.cfg.cap < body.length + 3 →
      t.results.take (s.cfg.cap + 1) = List.replicate s.cfg.cap .pending ++ [.error .packetSizeExceeded])

/-! ### The accumulator -/

/-- R140: `ACC_UPDATE` on an instance that exists. -/
def Obligations.AccUpdateFoldsSample : Prop :=
  ∀ (k : BitVec 4) (raw : Byte), (Instr.accUpdate k raw).opCode = some 0x7 ∧
    ∀ s : State, k.toNat < s.cfg.nAcc → s.acc.length = s.cfg.nAcc →
    ∃ a, s.acc[k.toNat]? = some a ∧
      exec (.accUpdate k raw) s =
        .next { s with
          acc := s.acc.set k.toNat
            { prev := raw, cum := (a.cum + (raw.toNat + 256 - a.prev.toNat) % 256) % 2 ^ s.cfg.accW },
          results := [.acc raw ((a.cum + (raw.toNat + 256 - a.prev.toNat) % 256) % 2 ^ s.cfg.accW)] }

/-- R142: `ACC_LOAD` on an instance that exists, with an `ACC_W`-bit total. -/
def Obligations.AccLoadSetsPair : Prop :=
  ∀ (k : BitVec 4) (d : Byte) (c : Nat), (Instr.accLoad k d c).opCode = some 0x8 ∧
    ∀ s : State, k.toNat < s.cfg.nAcc → s.acc.length = s.cfg.nAcc → c < 2 ^ s.cfg.accW →
    exec (.accLoad k d c) s =
      .next { s with acc := s.acc.set k.toNat { prev := d, cum := c }, results := [.acc d c] }

/-- Of a wider number `ACC_LOAD` takes the bits `c[ACC_W-1:0]` of its field: the model's choice (log 15). -/
def Obligations.AccLoadTakesFieldBits : Prop :=
  ∀ (k : BitVec 4) (d : Byte) (c : Nat) (s : State),
    exec (.accLoad k d c) s = exec (.accLoad k d (c % 2 ^ s.cfg.accW)) s ∧
    (k.toNat < s.acc.length → ∃ t, exec (.accLoad k d c) s = .next t ∧ t.results = [.acc d (c % 2 ^ s.cfg.accW)])

/-- R143: an accumulator operation on an instance that does not exist is refused. -/
def Obligations.AccRefusesMissingInstance : Prop :=
  ∀ (k : BitVec 4) (d : Byte) (c : Nat) (s : State), s.acc.length = s.cfg.nAcc → s.cfg.nAcc ≤ k.toNat →
    exec (.accUpdate k d) s = .refused (.noSuchAccumulator k) ∧
    exec (.accLoad k d c) s = .refused (.noSuchAccumulator k)

/-- R141 (a), (b), (c), (e): a repeated sample adds 0; one wrap; a sample one older adds 255; the total wraps to 0 with
no error. -/
def Obligations.AccCornerCases : Prop :=
  ∀ (k : BitVec 4) (raw : Byte) (s : State) (a : Acc), s.acc[k.toNat]? = some a → a.cum < 2 ^ s.cfg.accW → 8 < s.cfg.accW →
    (raw = a.prev → exec (.accUpdate k raw) s = .next { s with results := [.acc a.prev a.cum] }) ∧
    (raw.toNat < a.prev.toNat → ∃ t, exec (.accUpdate k raw) s = .next t ∧
      t.results = [.acc raw ((a.cum + (raw.toNat + 256 - a.prev.toNat)) % 2 ^ s.cfg.accW)]) ∧
    (raw = a.prev - 1 → ∃ t, exec (.accUpdate k raw) s = .next t ∧
      t.results = [.acc raw ((a.cum + 255) % 2 ^ s.cfg.accW)]) ∧
    (raw = a.prev + 1 → a.cum = 2 ^ s.cfg.accW - 1 → ∃ t, exec (.accUpdate k raw) s = .next t ∧
      t.results = [.acc raw 0] ∧ t.acc[k.toNat]? = some { prev := raw, cum := 0 })

/-- R145: the sum law, and that the total never decreases from one update to the next as long as it has not wrapped. -/
def Obligations.SumLaw : Prop :=
  ∀ (k : BitVec 4) (samples : List Byte) (s : State) (a : Acc), s.acc[k.toNat]? = some a → a.cum < 2 ^ s.cfg.accW →
    ∃ t, runProgram (samples.map (.accUpdate k)) s = .next t ∧
      t.acc[k.toNat]? = some
        { prev := samples.getLastD a.prev, cum := (a.cum + (sampleDeltas a.prev samples).sum) % 2 ^ s.cfg.accW } ∧
      (a.cum + (sampleDeltas a.prev samples).sum < 2 ^ s.cfg.accW →
        ∃ totals, totals.length = samples.length ∧ t.results = List.zipWith .acc samples totals ∧
          (a.cum :: totals).Pairwise (· ≤ ·))

/-- R146: an advance of `n` between two samples is seen modulo 256. -/
def Obligations.AdvanceSeenModulo256 : Prop :=
  ∀ (k : BitVec 4) (n : Nat) (s : State) (a : Acc), s.acc[k.toNat]? = some a →
    ∃ t, exec (.accUpdate k (a.prev + BitVec.ofNat 8 n)) s = .next t ∧
      t.acc[k.toNat]? = some { prev := a.prev + BitVec.ofNat 8 n, cum := (a.cum + n % 256) % 2 ^ s.cfg.accW }

/-- R204: a sample older by `j` counts adds `256 - j`; the next sample, `m` ahead of the true counter, then brings the pair to
256 more than the true advance. -/
def Obligations.LateSampleCountsForward : Prop :=
  ∀ (k : BitVec 4) (j m : Nat) (s : State) (a : Acc), s.acc[k.toNat]? = some a → 0 < j → j < 256 → j + m < 256 →
    ∃ t, runProgram [.accUpdate k (a.prev - BitVec.ofNat 8 j), .accUpdate k (a.prev + BitVec.ofNat 8 m)] s = .next t ∧
      t.results = [.acc (a.prev - BitVec.ofNat 8 j) ((a.cum + (256 - j)) % 2 ^ s.cfg.accW),
        .acc (a.prev + BitVec.ofNat 8 m) ((a.cum + m + 256) % 2 ^ s.cfg.accW)]

/-- R203: after `RESET` the first sample `raw` adds `raw` itself. -/
def Obligations.FirstSampleAddsItself : Prop :=
  ∀ (k : BitVec 4) (raw : Byte) (s : State), s.cfg.Valid → k.toNat < s.cfg.nAcc →
    ∃ t, runProgram [.reset, .accUpdate k raw] s = .next t ∧ t.results = [.pending, .acc raw raw.toNat] ∧
      t.acc[k.toNat]? = some { prev := raw, cum := raw.toNat }

/-- R30: an operation on instance `k` writes only the pair of `k`, and what it writes depends only on that pair; no operation
but `ACC_UPDATE`, `ACC_LOAD` and `RESET` changes an accumulator. -/
def Obligations.AccInstancesIndependent : Prop :=
  (∀ (i : Instr) (k : BitVec 4) (s t : State), i.accIndex = some k → exec i s = .next t →
    SameDecoder s t ∧ t.cfg = s.cfg ∧ t.pending = s.pending ∧
      ∀ j, j ≠ k.toNat → t.acc[j]? = s.acc[j]?) ∧
  (∀ (i : Instr) (k : BitVec 4) (s s' t : State), i.accIndex = some k → s'.cfg = s.cfg →
    s'.acc[k.toNat]? = s.acc[k.toNat]? → exec i s = .next t →
    ∃ t', exec i s' = .next t' ∧ t'.acc[k.toNat]? = t.acc[k.toNat]? ∧ t'.results = t.results) ∧
  ∀ (i : Instr) (s t : State), exec i s = .next t → i ≠ .reset → i.accIndex = none → t.acc = s.acc

/-! ### Over all operations -/

/-- R62: only the decoder operations (and `RESET`) touch the decoder; a decoder operation touches nothing else. -/
def Obligations.OnlyDecoderTouchesDecoder : Prop :=
  ∀ (i : Instr) (s t : State), exec i s = .next t →
    (i.isDecoder = false → i ≠ .reset → SameDecoder s t) ∧
    (i.isDecoder = true → t.acc = s.acc) ∧ t.cfg = s.cfg ∧ t.pending = s.pending

/-- R50: the bytes of `rx_buf` an operation leaves alone. All but `DEC_BYTE` (and `FRAME`, which is made of it) store nothing;
`DEC_BYTE` stores to the one index its arm names, and under the invariant that index is `rx_cnt`. That the checksum byte is not
stored is the model's choice (log 11). -/
def Obligations.BufferFrame : Prop :=
  (∀ (i : Instr) (s t : State), exec i s = .next t → (∀ d, i ≠ .decByte d) → (∀ b c, i ≠ .frame b c) →
    ∀ a, t.rxBuf.read a = s.rxBuf.read a) ∧
  ∀ (d : Byte) (s t : State), exec (.decByte d) s = .next t →
    (storeIndex (byteArm d s) s = none → ∀ a, t.rxBuf.read a = s.rxBuf.read a) ∧
    ∀ i, storeIndex (byteArm d s) s = some i →
      t.rxBuf.read i = some d ∧ (∀ a, a ≠ i → t.rxBuf.read a = s.rxBuf.read a) ∧ (Inv s → i = s.rxCnt)

/-- R62: a decoder operation commutes with an accumulator operation, `ENC` with everything, and operations on two different
instances with each other: same final state, same results. -/
def Obligations.PartsCommute : Prop :=
  ∀ (i j : Instr) (s s1 s2 : State),
    ((i.isDecoder = true ∧ j.accIndex.isSome = true) ∨ (∃ ty p, j = .enc ty p) ∨
      ∃ k l, i.accIndex = some k ∧ j.accIndex = some l ∧ k ≠ l) →
    exec i s = .next s1 → exec j s1 = .next s2 →
    ∃ t1 t2, exec j s = .next t1 ∧ exec i t1 = .next t2 ∧ forgetResults t2 = forgetResults s2 ∧
      t1.results = s2.results ∧ t2.results = s1.results

/-- R27, U4: buffer bytes at an index `>= rx_cnt` are unobservable: two states that differ only there give the same results
and again differ only there. -/
def Obligations.StaleBytesUnobservable : Prop :=
  ∀ (i : Instr) (s s' t : State), Inv s → Inv s' → AgreeOnFrame s s' → exec i s = .next t →
    ∃ t', exec i s' = .next t' ∧ t'.results = t.results ∧ AgreeOnFrame t t'

/-- R28: every step keeps the invariants, from every state that has them. -/
def Obligations.StepKeepsInvariants : Prop :=
  ∀ s t : State, Inv s → step s = .next t → Inv t

/-- After reset the invariants hold, for every choice of the parameters in their ranges (R39), and the buffer lists nothing:
the model's form of "unspecified" (log 9). -/
def Obligations.ResetHasInvariants : Prop :=
  (∀ p : Params, p.Valid → Inv (State.resetWith p) ∧ ∀ i, (State.resetWith p).rxBuf.read i = none) ∧ Inv State.reset

/-- R10: an operation whose precondition holds has exactly one next state; one whose precondition fails is refused; no
operation stops the block with a fault. -/
def Obligations.OperationsTotal : Prop :=
  ∀ (i : Instr) (s : State), Inv s →
    (i.Meets s.cfg → ∃ t, exec i s = .next t) ∧
    (¬ i.Meets s.cfg → ∃ r, exec i s = .refused r) ∧
    ∀ f, exec i s ≠ .fault f

/-- R33, R165: every operation returns one result, and only those the table lists for it; a wire frame returns one for each of
its bytes (log 4). -/
def Obligations.ResultsByOperation : Prop :=
  ∀ (i : Instr) (s t : State), exec i s = .next t →
    (∀ r ∈ t.results, i.mayReturn r) ∧
    ((∀ b c, i ≠ .frame b c) → t.results.length = 1) ∧
    ∀ b c, i = .frame b c → t.results.length = b.length + 3

/-- R33: the result codes; bit 2 set means an error kind. -/
def Obligations.ResultCodes : Prop :=
  (Result.pending).code = 0 ∧ (∀ l b t, (Result.decoded l b t).code = 1) ∧ (Result.noMessage).code = 2 ∧
  (∀ b, (Result.encoded b).code = 3) ∧ (∀ p c, (Result.acc p c).code = 3) ∧
  (Result.error .missingSync).code = 4 ∧ (Result.error .badChecksum).code = 5 ∧
  (Result.error .packetSizeExceeded).code = 6 ∧ (Result.error .timeoutMidMessage).code = 7 ∧
  ∀ r : Result, r.code.getLsbD 2 = true ↔ ∃ k, r = .error k

/-! ### Steps and encodings -/

/-- R9: a step runs the oldest request: when its bytes decode to `i`, the step is `exec i` on the state without that request.
The queue is the model's form of the host (log 5). -/
def Obligations.StepRunsOldestRequest : Prop :=
  ∀ (s : State) (request : List Byte) (rest : List (List Byte)) (i : Instr),
    s.pending = request :: rest → decode request = .ok i → step s = exec i { s with pending := rest }

/-- What a step does when no operation can run: with no request it is idle (R150: a moment in which the host asks nothing), and
it refuses a request that is no encoding. Both are the model's choices (log 3, log 6). -/
def Obligations.StepWithoutOperation : Prop :=
  (∀ s : State, s.pending = [] → step s = .next { s with results := [] }) ∧
  ∀ (s : State) (request : List Byte) (rest : List (List Byte)) (why : DecodeError),
    s.pending = request :: rest → decode request = .error why → step s = .refused (.undecodable why)

/-- R70: the operation code alone selects the operation. Of every request that decodes, the first byte is the code of the
operation, zero-extended, and of a wire frame the sync byte (R72): that it is laid out so is the model's choice (log 3). -/
def Obligations.CodeSelectsOperation : Prop :=
  ∀ (lead : Byte) (rest : List Byte) (i : Instr), decode (lead :: rest) = .ok i →
    (i.opCode = none ∧ lead = 0xA4#8 ∧ ∃ body cs, i = .frame body cs) ∨
    ∃ op : BitVec 4, i.opCode = some op ∧ lead = op.setWidth 8

/-- Decode and encode agree for every well-formed instruction, and bytes behind the fields an operation names are ignored (R71).
The layout is the model's choice (log 3). -/
def Obligations.DecodeOfEncode : Prop :=
  ∀ (i : Instr) (extra : List Byte), i.WellFormed → decode (encode i ++ extra) = .ok i

/-- R70: the operation code in bits 3:0 of the first byte selects the operation; the operand fields follow in the order of R70.
Sanity on words written out from the table; the rest of the layout is the model's choice (log 3). -/
def Obligations.TableWordsDecode : Prop :=
  decodeTableWord 8 0x0 = some .nop ∧ decodeTableWord 8 0x1 = some .reset ∧ decodeTableWord 8 0x4 = some .decTick ∧
  decodeTableWord 8 0x5 = some .decArm ∧ decodeTableWord 8 0x6 = some .decAbort ∧
  decodeTableWord 8 0x9 = some .reserved9 ∧ decodeTableWord 8 0xF = some .reservedF ∧
  decodeTableWord 16 0xA403 = some (.decByte 0xA4#8) ∧
  decodeTableWord 24 0xFA0007 = some (.accUpdate 0 0xFA#8) ∧
  decodeTableWord 40 0x0201024A02 = some (.enc 0x4A#8 [0x01#8, 0x02#8]) ∧
  decodeTableWord 48 0xEE02014A03A4 = some (.frame [0x4A#8, 0x01#8, 0x02#8] 0xEE#8)

/-! ### Host procedures -/

/-- R129: a read attempt never stops short, and when it returns, the result is an outcome and the parse state is empty. -/
def Obligations.ReadAttemptLeavesNothing : Prop :=
  ∀ (events : List ChannelEvent) (s : State), Inv s →
    decodeNext events s ≠ .stopped ∧
    ∀ r t rest, decodeNext events s = .returned r t rest →
      r ≠ .pending ∧ t.rxState = .awaitSync ∧ t.rxCnt = 0 ∧ Inv t

/-- R130: every run of the counted decoder is a run of the time-free reading: a tick is either nothing or the event `LAPSE`, and
every other operation does the same with the count forgotten. -/
def Obligations.TimeFreeReadingCovers : Prop :=
  (∀ s t : State, exec .decTick s = .next t →
    (t.results = [.pending] ∧ forgetResults (forgetCount t) = forgetResults (forgetCount s)) ∨
    execLapse (forgetCount s) = some (.next (forgetCount t))) ∧
  ∀ (i : Instr) (s t : State), i ≠ .decTick → exec i s = .next t →
    ∃ t', exec i (forgetCount s) = .next t' ∧ forgetCount t' = forgetCount t ∧ t'.results = t.results
end

