-- ==== Sys2Proof/Laws/State.lean ====
section
/-! SUPPORT. What each named update of a state does to each field: one lemma per field, true by `rfl`. -/

namespace Sys2Proof.Machine

/-! ### `resetParse` -/

@[simp] theorem resetParse_cfg (s : State) : (resetParse s).cfg = s.cfg := rfl
@[simp] theorem resetParse_rxState (s : State) : (resetParse s).rxState = .awaitSync := rfl
@[simp] theorem resetParse_rxCnt (s : State) : (resetParse s).rxCnt = 0 := rfl
@[simp] theorem resetParse_rxLen (s : State) : (resetParse s).rxLen = 0x00#8 := rfl
@[simp] theorem resetParse_rxXor (s : State) : (resetParse s).rxXor = 0x00#8 := rfl
@[simp] theorem resetParse_rxTimer (s : State) : (resetParse s).rxTimer = s.rxTimer := rfl
@[simp] theorem resetParse_rxBuf (s : State) : (resetParse s).rxBuf = s.rxBuf := rfl
@[simp] theorem resetParse_acc (s : State) : (resetParse s).acc = s.acc := rfl
@[simp] theorem resetParse_pending (s : State) : (resetParse s).pending = s.pending := rfl
@[simp] theorem resetParse_results (s : State) : (resetParse s).results = s.results := rfl
@[simp] theorem resetParse_draws (s : State) : (resetParse s).draws = s.draws := rfl

/-! ### `setTimer` -/

@[simp] theorem setTimer_cfg (v : Nat) (s : State) : (setTimer v s).cfg = s.cfg := rfl
@[simp] theorem setTimer_rxState (v : Nat) (s : State) : (setTimer v s).rxState = s.rxState := rfl
@[simp] theorem setTimer_rxCnt (v : Nat) (s : State) : (setTimer v s).rxCnt = s.rxCnt := rfl
@[simp] theorem setTimer_rxLen (v : Nat) (s : State) : (setTimer v s).rxLen = s.rxLen := rfl
@[simp] theorem setTimer_rxXor (v : Nat) (s : State) : (setTimer v s).rxXor = s.rxXor := rfl
@[simp] theorem setTimer_rxTimer (v : Nat) (s : State) : (setTimer v s).rxTimer = v := rfl
@[simp] theorem setTimer_rxBuf (v : Nat) (s : State) : (setTimer v s).rxBuf = s.rxBuf := rfl
@[simp] theorem setTimer_acc (v : Nat) (s : State) : (setTimer v s).acc = s.acc := rfl
@[simp] theorem setTimer_pending (v : Nat) (s : State) : (setTimer v s).pending = s.pending := rfl
@[simp] theorem setTimer_results (v : Nat) (s : State) : (setTimer v s).results = s.results := rfl
@[simp] theorem setTimer_draws (v : Nat) (s : State) : (setTimer v s).draws = s.draws := rfl

/-! ### `setAcc` -/

@[simp] theorem setAcc_cfg (k : BitVec 4) (a : Acc) (s : State) : (setAcc k a s).cfg = s.cfg := rfl
@[simp] theorem setAcc_rxState (k : BitVec 4) (a : Acc) (s : State) : (setAcc k a s).rxState = s.rxState := rfl
@[simp] theorem setAcc_rxCnt (k : BitVec 4) (a : Acc) (s : State) : (setAcc k a s).rxCnt = s.rxCnt := rfl
@[simp] theorem setAcc_rxLen (k : BitVec 4) (a : Acc) (s : State) : (setAcc k a s).rxLen = s.rxLen := rfl
@[simp] theorem setAcc_rxXor (k : BitVec 4) (a : Acc) (s : State) : (setAcc k a s).rxXor = s.rxXor := rfl
@[simp] theorem setAcc_rxTimer (k : BitVec 4) (a : Acc) (s : State) : (setAcc k a s).rxTimer = s.rxTimer := rfl
@[simp] theorem setAcc_rxBuf (k : BitVec 4) (a : Acc) (s : State) : (setAcc k a s).rxBuf = s.rxBuf := rfl
@[simp] theorem setAcc_acc (k : BitVec 4) (a : Acc) (s : State) : (setAcc k a s).acc = s.acc.set k.toNat a := rfl
@[simp] theorem setAcc_pending (k : BitVec 4) (a : Acc) (s : State) : (setAcc k a s).pending = s.pending := rfl
@[simp] theorem setAcc_results (k : BitVec 4) (a : Acc) (s : State) : (setAcc k a s).results = s.results := rfl
@[simp] theorem setAcc_draws (k : BitVec 4) (a : Acc) (s : State) : (setAcc k a s).draws = s.draws := rfl

/-! ### `resetRegisters` -/

@[simp] theorem resetRegisters_cfg (s : State) : (resetRegisters s).cfg = s.cfg := rfl
@[simp] theorem resetRegisters_rxState (s : State) : (resetRegisters s).rxState = .awaitSync := rfl
@[simp] theorem resetRegisters_rxCnt (s : State) : (resetRegisters s).rxCnt = 0 := rfl
@[simp] theorem resetRegisters_rxLen (s : State) : (resetRegisters s).rxLen = 0x00#8 := rfl
@[simp] theorem resetRegisters_rxXor (s : State) : (resetRegisters s).rxXor = 0x00#8 := rfl
@[simp] theorem resetRegisters_rxTimer (s : State) : (resetRegisters s).rxTimer = 0 := rfl
@[simp] theorem resetRegisters_rxBuf (s : State) : (resetRegisters s).rxBuf = s.rxBuf := rfl
@[simp] theorem resetRegisters_acc (s : State) : (resetRegisters s).acc = List.replicate s.cfg.nAcc { prev := 0x00#8, cum := 0 } := rfl
@[simp] theorem resetRegisters_pending (s : State) : (resetRegisters s).pending = s.pending := rfl
@[simp] theorem resetRegisters_results (s : State) : (resetRegisters s).results = s.results := rfl
@[simp] theorem resetRegisters_draws (s : State) : (resetRegisters s).draws = s.draws := rfl

/-! ### `idle` -/

@[simp] theorem idle_cfg (s : State) : (idle s).cfg = s.cfg := rfl
@[simp] theorem idle_rxState (s : State) : (idle s).rxState = s.rxState := rfl
@[simp] theorem idle_rxCnt (s : State) : (idle s).rxCnt = s.rxCnt := rfl
@[simp] theorem idle_rxLen (s : State) : (idle s).rxLen = s.rxLen := rfl
@[simp] theorem idle_rxXor (s : State) : (idle s).rxXor = s.rxXor := rfl
@[simp] theorem idle_rxTimer (s : State) : (idle s).rxTimer = s.rxTimer := rfl
@[simp] theorem idle_rxBuf (s : State) : (idle s).rxBuf = s.rxBuf := rfl
@[simp] theorem idle_acc (s : State) : (idle s).acc = s.acc := rfl
@[simp] theorem idle_pending (s : State) : (idle s).pending = s.pending := rfl
@[simp] theorem idle_results (s : State) : (idle s).results = [] := rfl
@[simp] theorem idle_draws (s : State) : (idle s).draws = s.draws := rfl

end Sys2Proof.Machine
end

