-- ==== Sys2Proof/Laws/Ops.lean ====
section
/-! SUPPORT. The laws of the shared operations: sequencing, the checksum, results and errors. -/

namespace Sys2Proof.Machine

/-! ### Sequencing -/

@[simp] theorem andThen_next (s : State) (f : State → StepResult) : andThen (.next s) f = f s := rfl

@[simp] theorem andThen_fault (r : Fault) (f : State → StepResult) : andThen (.fault r) f = .fault r := rfl

@[simp] theorem andThen_refused (r : Refusal) (f : State → StepResult) : andThen (.refused r) f = .refused r := rfl

/-- Where a sequence ends in a next state, so does its first half. -/
theorem andThen_eq_next {o : StepResult} {f : State → StepResult} {t : State} (h : andThen o f = .next t) :
    ∃ s, o = .next s ∧ f s = .next t := by
  cases o with
  | next s => exact ⟨s, rfl, h⟩
  | fault r => cases h
  | refused r => cases h

/-! ### Results and errors -/

/-- A reply changes the result port and nothing else. -/
theorem reply_eq (r : Result) (s : State) : reply r s = .next { s with results := [r] } := rfl

theorem reply_eq_next {r : Result} {s t : State} (h : reply r s = .next t) : t = { s with results := [r] } := by
  cases h; rfl

/-- Raising an error: `MissingSync` changes no register, the other three reset the parse state (R161). -/
theorem errorState_cases (k : ErrorKind) (s : State) : errorState k s = s ∨ errorState k s = resetParse s := by
  cases k <;> simp [errorState]

/-- A store succeeds exactly inside the buffer. -/
theorem storeByte_of_lt {i : Nat} {v : Byte} {s : State} (h : i < s.cfg.cap) :
    storeByte i v s = .next { s with rxBuf := s.rxBuf.write i v } := by
  simp [storeByte, h]

theorem storeByte_eq_next {i : Nat} {v : Byte} {s t : State} (h : storeByte i v s = .next t) :
    i < s.cfg.cap ∧ t = { s with rxBuf := s.rxBuf.write i v } := by
  unfold storeByte at h
  split at h
  · cases h; exact ⟨‹_›, rfl⟩
  · cases h

/-! ### The checksum -/

@[simp] theorem xorAll_nil : xorAll [] = 0x00#8 := rfl

@[simp] theorem xorAll_cons (b : Byte) (bs : List Byte) : xorAll (b :: bs) = b ^^^ xorAll bs := rfl

@[simp] theorem xorAll_append (xs ys : List Byte) : xorAll (xs ++ ys) = xorAll xs ^^^ xorAll ys := by
  induction xs with
  | nil => simp
  | cons x xs ih => simp [ih, BitVec.xor_assoc]

/-- Replacing one byte changes the exclusive-or by the exclusive-or of the old byte and the new. -/
theorem xorAll_set {bs : List Byte} {i : Nat} {old : Byte} (h : bs[i]? = some old) (new : Byte) :
    xorAll (bs.set i new) = xorAll bs ^^^ old ^^^ new := by
  induction bs generalizing i with
  | nil => simp at h
  | cons b bs ih =>
    cases i with
    | zero =>
      obtain rfl : b = old := by simpa using h
      simp only [List.set_cons_zero, xorAll_cons]
      rw [BitVec.xor_comm b, BitVec.xor_assoc (xorAll bs), BitVec.xor_self, BitVec.xor_zero, BitVec.xor_comm]
    | succ i =>
      have h' : bs[i]? = some old := by simpa using h
      simp [ih h', BitVec.xor_assoc]

/-- The wire frame of a type and a payload is the wire frame with their body and its checksum (R72, R74). -/
theorem encodeFrame_eq (t : Byte) (p : List Byte) :
    encodeFrame t p = wireFrame (t :: p) (frameChecksum (t :: p)) := by
  simp [encodeFrame, wireFrame, frameChecksum]

/-- `takeRequest` gives the oldest request. -/
theorem takeRequest_cons {s : State} {r : List Byte} {rest : List (List Byte)} (h : s.pending = r :: rest) :
    takeRequest s = some (r, { s with pending := rest }) := by
  simp [takeRequest, h]

theorem takeRequest_nil {s : State} (h : s.pending = []) : takeRequest s = none := by
  simp [takeRequest, h]

end Sys2Proof.Machine
end

