-- ==== Sys2Proof/Laws/Accumulator.lean ====
section
/-! SUPPORT. The laws of the accumulator's shared operation. -/

namespace Sys2Proof.Machine

/-- Everything an accumulator operation can do when it has a next state. -/
theorem updateAcc_cases {k : BitVec 4} {f : Acc → Acc} {s t : State} (h : updateAcc k f s = .next t) :
    ∃ a, s.acc[k.toNat]? = some a ∧
      t = { s with acc := s.acc.set k.toNat (f a), results := [.acc (f a).prev (f a).cum] } := by
  unfold updateAcc at h
  split at h
  next a ha => exact ⟨a, ha, by cases h; rfl⟩
  next => cases h

/-- The operation on an instance that exists. -/
theorem updateAcc_of_some {k : BitVec 4} {s : State} {a : Acc} (h : s.acc[k.toNat]? = some a) (f : Acc → Acc) :
    updateAcc k f s =
      .next { s with acc := s.acc.set k.toNat (f a), results := [.acc (f a).prev (f a).cum] } := by
  simp [updateAcc, accAt, h, reply_eq, setAcc]

/-- The operation on an instance that does not exist. -/
theorem updateAcc_of_none {k : BitVec 4} {s : State} (h : s.acc[k.toNat]? = none) (f : Acc → Acc) :
    updateAcc k f s = .refused (.noSuchAccumulator k) := by
  simp [updateAcc, accAt, h]

/-- The wraparound difference as R141 (f) writes it. -/
theorem rolloverDelta_eq (raw prev : Byte) : rolloverDelta raw prev = (raw.toNat + 256 - prev.toNat) % 256 := by
  have := raw.isLt
  have := prev.isLt
  simp only [rolloverDelta, BitVec.toNat_sub]
  congr 1
  omega

end Sys2Proof.Machine
end

