-- ==== Sys2Proof/Laws/Decode.lean ====
section
/-! SUPPORT. The laws of the field encodings. -/

namespace Sys2Proof

/-- A counted run of bytes is split off whole. -/
theorem splitBytes_append (xs ys : List Byte) : splitBytes xs.length (xs ++ ys) = some (xs, ys) := by
  induction xs with
  | nil => rfl
  | cons x xs ih => simp [splitBytes, ih]

/-- A number written with enough bytes reads back, whatever stands behind it. -/
theorem wideValue_wideBytes (n c : Nat) (extra : List Byte) (h : c < 128 ^ (n + 1)) :
    wideValue (wideBytes n c ++ extra) = some c := by
  induction n generalizing c with
  | zero =>
    have h1 : c % 256 = c := by omega
    have h2 : c < 128 := by omega
    simp [wideBytes, wideValue, h1, h2]
  | succ n ih =>
    unfold wideBytes
    split
    next hc =>
      have h1 : c % 256 = c := by omega
      simp [wideValue, h1, hc]
    next hc =>
      have h1 : c / 128 < 128 ^ (n + 1) := by
        rw [Nat.div_lt_iff_lt_mul (by decide)]; rwa [pow_succ] at h
      have h2 : (128 + c % 128) % 256 = 128 + c % 128 := by omega
      have h3 : ¬ 128 + c % 128 < 128 := by omega
      simp only [List.cons_append, wideValue, BitVec.toNat_ofNat, h2, h3, if_false, ih _ h1, Option.map_some]
      congr 1
      omega

/-- As many bytes as `encode` takes for a total are enough. -/
theorem lt_wide_log2 (c : Nat) : c < 128 ^ (c.log2 + 1) :=
  lt_of_lt_of_le Nat.lt_log2_self (Nat.pow_le_pow_left (by decide) _)

end Sys2Proof
end

