-- ==== Sys2Proof/Laws/Decoder.lean ====
section
/-! SUPPORT. The laws of the decoder's shared operations: what an arm of `DEC_BYTE` can do, and feeding bytes. -/

namespace Sys2Proof.Machine

@[simp] theorem byteArm_setTimer (d : Byte) (v : Nat) (s : State) : byteArm d (setTimer v s) = byteArm d s := rfl

@[simp] theorem storeIndex_setTimer (arm : ByteArm) (v : Nat) (s : State) :
    storeIndex arm (setTimer v s) = storeIndex arm s := by
  cases arm <;> rfl

/-- The stored byte, if the index exists. -/
theorem storeTaken_of_some {arm : ByteArm} {d : Byte} {s : State} {i : Nat} (h : storeIndex arm s = some i)
    (hi : i < s.cfg.cap) : storeTaken arm d s = .next { s with rxBuf := s.rxBuf.write i d } := by
  simp [storeTaken, h, storeByte_of_lt hi]

theorem storeTaken_of_none {arm : ByteArm} {d : Byte} {s : State} (h : storeIndex arm s = none) :
    storeTaken arm d s = .next s := by
  simp [storeTaken, h]

/-- Everything the store of a byte can do. -/
theorem storeTaken_cases {arm : ByteArm} {d : Byte} {s t : State} (h : storeTaken arm d s = .next t) :
    (storeIndex arm s = none ∧ t = s) ∨
    ∃ i, storeIndex arm s = some i ∧ i < s.cfg.cap ∧ t = { s with rxBuf := s.rxBuf.write i d } := by
  unfold storeTaken at h
  split at h
  next i hi => exact .inr ⟨i, hi, storeByte_eq_next h⟩
  next hn => cases h; exact .inl ⟨hn, rfl⟩

/-- An index that an arm stores to is inside the buffer, when the parameters are in their ranges (R50). -/
theorem storeIndex_lt {d : Byte} {s : State} {i : Nat} (hp : s.cfg.Valid) (h : storeIndex (byteArm d s) s = some i) :
    i < s.cfg.cap := by
  obtain ⟨h4, -⟩ := hp
  unfold byteArm at h
  split at h
  · split at h
    · cases h
    · cases h; omega
  · cases h; omega
  · split at h
    · cases h
    · split at h
      · cases h; omega
      · split at h <;> cases h

/-- The delivery of a frame: the parse state is reset and the result is the frame (R117, R120). -/
theorem deliver_cases (s : State) :
    (∃ t rest, frameBody s = t :: rest ∧ deliver s = reply (.decoded s.rxLen (t :: rest) t) (resetParse s)) ∨
    (frameBody s = [] ∧
      deliver s = reply (.decoded s.rxLen [] (Config.freeOutType s.draws)) (resetParse { s with draws := s.draws + 1 })) := by
  unfold deliver
  split
  next t rest h => exact .inl ⟨t, rest, h, rfl⟩
  next h => exact .inr ⟨h, rfl⟩

/-- What every arm leaves alone after the store, and that it returns one result. -/
theorem finishByte_frame (arm : ByteArm) (d : Byte) (s : State) :
    ∃ t r, finishByte arm d s = .next t ∧ t.results = [r] ∧ t.cfg = s.cfg ∧ t.acc = s.acc ∧ t.pending = s.pending ∧
      t.rxTimer = s.rxTimer ∧ t.rxBuf = s.rxBuf := by
  cases arm with
  | accept =>
    rcases deliver_cases s with ⟨t, rest, -, h⟩ | ⟨-, h⟩ <;>
      exact ⟨_, _, h.trans (reply_eq _ _), rfl, rfl, rfl, rfl, rfl, rfl⟩
  | missingSync => exact ⟨_, _, rfl, rfl, rfl, rfl, rfl, rfl, rfl⟩
  | beginFrame => exact ⟨_, _, rfl, rfl, rfl, rfl, rfl, rfl, rfl⟩
  | takeLength => exact ⟨_, _, rfl, rfl, rfl, rfl, rfl, rfl, rfl⟩
  | tooLong => exact ⟨_, _, rfl, rfl, rfl, rfl, rfl, rfl, rfl⟩
  | takeBody => exact ⟨_, _, rfl, rfl, rfl, rfl, rfl, rfl, rfl⟩
  | badChecksum => exact ⟨_, _, rfl, rfl, rfl, rfl, rfl, rfl, rfl⟩

/-- `DEC_BYTE` is the reload, the store its arm names, and the arm's register writes and result. -/
theorem execDecByte_cases {d : Byte} {s t : State} (h : execDecByte d s = .next t) :
    ∃ s1, storeTaken (byteArm d s) d (setTimer s.cfg.tByte s) = .next s1 ∧ finishByte (byteArm d s) d s1 = .next t :=
  andThen_eq_next h

/-- A byte without a store. -/
theorem execDecByte_of_none {d : Byte} {s : State} (h : storeIndex (byteArm d s) s = none) :
    execDecByte d s = finishByte (byteArm d s) d (setTimer s.cfg.tByte s) := by
  have h' := storeTaken_of_none (arm := byteArm d s) (d := d) (s := setTimer s.cfg.tByte s) (by simpa using h)
  simp [execDecByte, h']

/-- A byte with a store. -/
theorem execDecByte_of_some {d : Byte} {s : State} {i : Nat} (h : storeIndex (byteArm d s) s = some i)
    (hi : i < s.cfg.cap) :
    execDecByte d s =
      finishByte (byteArm d s) d { setTimer s.cfg.tByte s with rxBuf := s.rxBuf.write i d } := by
  have h' := storeTaken_of_some (arm := byteArm d s) (d := d) (s := setTimer s.cfg.tByte s) (by simpa using h) (by simpa using hi)
  simp [execDecByte, h']

/-- What `DEC_BYTE` leaves alone, in every state with valid parameters: it completes, reloads the countdown, and touches
only the decoder. -/
theorem execDecByte_frame (d : Byte) (s : State) (hp : s.cfg.Valid) :
    ∃ t r, execDecByte d s = .next t ∧ t.results = [r] ∧ t.cfg = s.cfg ∧ t.acc = s.acc ∧ t.pending = s.pending ∧
      t.rxTimer = s.cfg.tByte := by
  cases h : storeIndex (byteArm d s) s with
  | none =>
    obtain ⟨t, r, ht, hr, hc, ha, hq, hT, -⟩ := finishByte_frame (byteArm d s) d (setTimer s.cfg.tByte s)
    exact ⟨t, r, by rw [execDecByte_of_none h, ht], hr, hc, ha, hq, hT⟩
  | some i =>
    obtain ⟨t, r, ht, hr, hc, ha, hq, hT, -⟩ :=
      finishByte_frame (byteArm d s) d { setTimer s.cfg.tByte s with rxBuf := s.rxBuf.write i d }
    exact ⟨t, r, by rw [execDecByte_of_some h (storeIndex_lt hp h), ht], hr, hc, ha, hq, hT⟩

/-! ### Feeding bytes -/

@[simp] theorem feedBytes_nil (s : State) : feedBytes [] s = .next { s with results := [] } := rfl

/-- One byte and then the rest. -/
theorem feedBytes_cons {b : Byte} {bs : List Byte} {s s1 s2 : State} (h1 : execDecByte b s = .next s1)
    (h2 : feedBytes bs s1 = .next s2) :
    feedBytes (b :: bs) s = .next { s2 with results := s1.results ++ s2.results } := by
  simp [feedBytes, h1, h2]

theorem feedBytes_cons_cases {b : Byte} {bs : List Byte} {s t : State} (h : feedBytes (b :: bs) s = .next t) :
    ∃ s1 s2, execDecByte b s = .next s1 ∧ feedBytes bs s1 = .next s2 ∧
      t = { s2 with results := s1.results ++ s2.results } := by
  obtain ⟨s1, h1, h⟩ := andThen_eq_next h
  obtain ⟨s2, h2, h⟩ := andThen_eq_next h
  cases h
  exact ⟨s1, s2, h1, h2, rfl⟩

/-- The result port is written and never read: nothing of a result is kept in the block (R33). -/
theorem execDecByte_results (d : Byte) (s : State) (r : List Result) :
    execDecByte d { s with results := r } = execDecByte d s := by
  have hidx : ∀ arm, storeIndex arm { s with results := r } = storeIndex arm s := fun arm => by cases arm <;> rfl
  have harm : byteArm d { s with results := r } = byteArm d s := rfl
  cases h : storeIndex (byteArm d s) s with
  | none =>
    rw [execDecByte_of_none h, execDecByte_of_none (by rw [harm, hidx, h]), harm]
    cases byteArm d s <;> rfl
  | some i =>
    by_cases hi : i < s.cfg.cap
    · rw [execDecByte_of_some h hi, execDecByte_of_some (s := { s with results := r }) (by rw [harm, hidx, h]) hi, harm]
      cases byteArm d s <;> rfl
    · simp [execDecByte, storeTaken, harm, hidx, h, storeByte, hi]

/-- Feeding bytes does not read the result port. -/
theorem feedBytes_results (bs : List Byte) (s : State) (r : List Result) :
    feedBytes bs { s with results := r } = feedBytes bs s := by
  cases bs with
  | nil => rfl
  | cons b bs => simp only [feedBytes, execDecByte_results]

/-- Feeding one sequence after another. -/
theorem feedBytes_append (xs ys : List Byte) (s : State) :
    feedBytes (xs ++ ys) s =
      andThen (feedBytes xs s) fun s1 =>
        andThen (feedBytes ys s1) fun s2 => .next { s2 with results := s1.results ++ s2.results } := by
  induction xs generalizing s with
  | nil =>
    simp only [List.nil_append, feedBytes_nil, andThen_next, feedBytes_results]
    cases feedBytes ys s <;> rfl
  | cons x xs ih =>
    simp only [List.cons_append, feedBytes]
    cases execDecByte x s with
    | next s1 =>
      simp only [andThen_next, ih s1]
      cases feedBytes xs s1 with
      | next s2 =>
        simp only [andThen_next, feedBytes_results]
        cases feedBytes ys s2 <;> simp
      | fault r => rfl
      | refused r => rfl
    | fault r => rfl
    | refused r => rfl

end Sys2Proof.Machine
end

