-- ==== Sys2Proof/Laws/PerInstr.lean ====
section
/-! SUPPORT. Statements made per instruction. `LeadByte`: the first byte of an operation's request is its code of
`30_encoding.md` R70, zero-extended, and of a wire frame the sync byte of R72. -/

namespace Sys2Proof.Laws.LeadByte

/-- The first byte the tables of R70 and R72 give each row. -/
def leadOf : Instr → Byte
  | .nop => 0x0
  | .reset => 0x1
  | .enc _ _ => 0x2
  | .decByte _ => 0x3
  | .decTick => 0x4
  | .decArm => 0x5
  | .decAbort => 0x6
  | .accUpdate _ _ => 0x7
  | .accLoad _ _ _ => 0x8
  | .reserved9 => 0x9
  | .reservedA => 0xA
  | .reservedB => 0xB
  | .reservedC => 0xC
  | .reservedD => 0xD
  | .reservedE => 0xE
  | .reservedF => 0xF
  | .frame _ _ => 0xA4

/-- The request of an instruction begins with the byte of its row. -/
def Statement (i : Instr) : Prop := (encode i).head? = some (leadOf i)

theorem nop : Statement .nop := rfl
theorem reset : Statement .reset := rfl
theorem enc (t : Byte) (p : List Byte) : Statement (.enc t p) := rfl
theorem decByte (d : Byte) : Statement (.decByte d) := rfl
theorem decTick : Statement .decTick := rfl
theorem decArm : Statement .decArm := rfl
theorem decAbort : Statement .decAbort := rfl
theorem accUpdate (k : BitVec 4) (d : Byte) : Statement (.accUpdate k d) := rfl
theorem accLoad (k : BitVec 4) (d : Byte) (c : Nat) : Statement (.accLoad k d c) := rfl
theorem reserved9 : Statement .reserved9 := rfl
theorem reservedA : Statement .reservedA := rfl
theorem reservedB : Statement .reservedB := rfl
theorem reservedC : Statement .reservedC := rfl
theorem reservedD : Statement .reservedD := rfl
theorem reservedE : Statement .reservedE := rfl
theorem reservedF : Statement .reservedF := rfl
theorem frame (body : List Byte) (cs : Byte) : Statement (.frame body cs) := rfl

end Sys2Proof.Laws.LeadByte
end

