-- ==== Sys2Proof/Laws/Program.lean ====
section
/-! SUPPORT. The laws of programs. -/

namespace Sys2Proof.Machine

@[simp] theorem runProgram_nil (s : State) : runProgram [] s = .next { s with results := [] } := rfl

/-- One operation and then the rest. -/
theorem runProgram_cons {i : Instr} {is : List Instr} {s s1 s2 : State} (h1 : exec i s = .next s1)
    (h2 : runProgram is s1 = .next s2) :
    runProgram (i :: is) s = .next { s2 with results := s1.results ++ s2.results } := by
  simp [runProgram, h1, h2]

theorem runProgram_cons_cases {i : Instr} {is : List Instr} {s t : State} (h : runProgram (i :: is) s = .next t) :
    ∃ s1 s2, exec i s = .next s1 ∧ runProgram is s1 = .next s2 ∧
      t = { s2 with results := s1.results ++ s2.results } := by
  obtain ⟨s1, h1, h⟩ := andThen_eq_next h
  obtain ⟨s2, h2, h⟩ := andThen_eq_next h
  cases h
  exact ⟨s1, s2, h1, h2, rfl⟩

/-- No operation reads the result port. -/
theorem exec_results (i : Instr) (s : State) (r : List Result) : exec i { s with results := r } = exec i s := by
  cases i with
  | decByte d => exact execDecByte_results d s r
  | frame body cs => exact feedBytes_results _ s r
  | enc t p => rfl
  | decTick =>
    simp only [exec, execDecTick, lapse]
    rfl
  | accUpdate k d => 
    simp only [exec, execAccUpdate, updateAcc, accAt]
    cases s.acc[k.toNat]? <;> rfl
  | accLoad k d c => 
    simp only [exec, execAccLoad, updateAcc, accAt]
    cases s.acc[k.toNat]? <;> rfl
  | _ => rfl

/-- No program reads the result port. -/
theorem runProgram_results (is : List Instr) (s : State) (r : List Result) :
    runProgram is { s with results := r } = runProgram is s := by
  cases is with
  | nil => rfl
  | cons i is => simp only [runProgram, exec_results]

/-- One program after another. -/
theorem runProgram_append (xs ys : List Instr) (s : State) :
    runProgram (xs ++ ys) s =
      andThen (runProgram xs s) fun s1 =>
        andThen (runProgram ys s1) fun s2 => .next { s2 with results := s1.results ++ s2.results } := by
  induction xs generalizing s with
  | nil =>
    simp only [List.nil_append, runProgram_nil, andThen_next, runProgram_results]
    cases runProgram ys s <;> rfl
  | cons x xs ih =>
    simp only [List.cons_append, runProgram]
    cases exec x s with
    | next s1 =>
      simp only [andThen_next, ih s1]
      cases runProgram xs s1 with
      | next s2 =>
        simp only [andThen_next, runProgram_results]
        cases runProgram ys s2 <;> simp
      | fault r => rfl
      | refused r => rfl
    | fault r => rfl
    | refused r => rfl

end Sys2Proof.Machine
end

