-- ==== Sys2Proof/Tests/Slice0.lean ====
section
/-! SUPPORT. The model's own tests: the smoke test of `WellFormed`, a word for every row of the tables of
`30_encoding.md` R70 and R72, one step for each operation with the expected result taken from `95_test_vectors.md`, and a
witness for the hypotheses of every obligation that has any. -/

namespace Sys2Proof.Tests.Slice0

open Sys2Proof.Machine

/-! ### Small states, with the parameters of the vectors (`CAP = 16`, `T_BYTE = 3`, `ACC_W = 32`, `N_ACC = 1`) -/

/-- `READ_LENGTH` after `A4` (vector V1d). -/
def atLength : State :=
  { State.reset with rxState := .readLength, rxCnt := 1, rxXor := 0xA4, rxTimer := 3, rxBuf := [(0, 0xA4)] }

/-- `READ_BODY` after `A4 03` (vector V1g). -/
def atType : State :=
  { State.reset with
    rxState := .readBody, rxCnt := 2, rxLen := 0x03, rxXor := 0xA7, rxTimer := 3, rxBuf := [(0, 0xA4), (1, 0x03)] }

/-- `READ_BODY` after `A4 03 4A 01 02` (vector S1, step 6). -/
def atChecksum : State :=
  { State.reset with
    rxState := .readBody, rxCnt := 5, rxLen := 0x03, rxXor := 0xEE, rxTimer := 3,
    rxBuf := [(0, 0xA4), (1, 0x03), (2, 0x4A), (3, 0x01), (4, 0x02)] }

/-- `READ_BODY` after `A4 00` (vector V2, step 2): the next byte is the checksum byte of an empty body. -/
def atEmptyChecksum : State :=
  { State.reset with
    rxState := .readBody, rxCnt := 2, rxLen := 0x00, rxXor := 0xA4, rxTimer := 3, rxBuf := [(0, 0xA4), (1, 0x00)] }

/-- `atChecksum` in a block with `CAP = 5` (vector V1k). -/
def atCapacity : State := { atChecksum with cfg := { Params.ofVectors with cap := 5 } }

/-- One accumulator at `(prev, cum)`. -/
def withAcc (prev : Byte) (cum : Nat) : State := { State.reset with acc := [{ prev := prev, cum := cum }] }

/-- The results and the state after an operation. -/
def after (i : Instr) (s : State) : Option State := nextState (exec i s)

/-! ### `WellFormed` refuses -/

theorem wellFormed_enc (t : Byte) (p : List Byte) : (Instr.enc t p).WellFormed ↔ p.length ≤ 255 := by
  simp [Instr.WellFormed, Instr.wellFormed]
theorem wellFormed_frame (body : List Byte) (cs : Byte) : (Instr.frame body cs).WellFormed ↔ body.length ≤ 255 := by
  simp [Instr.WellFormed, Instr.wellFormed]
theorem test_wellFormed_enc_256 : ¬ (Instr.enc 0x4A (List.replicate 256 0)).WellFormed := by
  rw [wellFormed_enc, List.length_replicate]; decide
theorem test_wellFormed_frame_256 : ¬ (Instr.frame (List.replicate 256 0) 0).WellFormed := by
  rw [wellFormed_frame, List.length_replicate]; decide
theorem test_wellFormed_enc_255 : (Instr.enc 0x4A (List.replicate 255 0)).WellFormed := by
  rw [wellFormed_enc, List.length_replicate]

/-! ### Words of the tables (R70, R72; the encoding column of `95_test_vectors.md`) -/

theorem test_decode_nop : decode [0x00] = .ok .nop := by rfl
theorem test_decode_reset : decode [0x01] = .ok .reset := by rfl
/-- `2 4A 02 [01 02]` (E1). -/
theorem test_decode_enc : decode [0x02, 0x4A, 0x02, 0x01, 0x02] = .ok (.enc 0x4A [0x01, 0x02]) := by rfl
/-- `3 A4` (S1): behind the operation code the value `A4` is an operand. -/
theorem test_decode_decByte : decode [0x03, 0xA4] = .ok (.decByte 0xA4) := by rfl
theorem test_decode_decTick : decode [0x04] = .ok .decTick := by rfl
theorem test_decode_decArm : decode [0x05] = .ok .decArm := by rfl
theorem test_decode_decAbort : decode [0x06] = .ok .decAbort := by rfl
/-- `7 1 12` (A3, step 3). -/
theorem test_decode_accUpdate : decode [0x07, 0x01, 0x12] = .ok (.accUpdate 1 0x12) := by rfl
/-- `8 0 FA 000003E8` (S2): 1000 = 7 * 128 + 104. -/
theorem test_decode_accLoad : decode [0x08, 0x00, 0xFA, 0xE8, 0x07] = .ok (.accLoad 0 0xFA 1000) := by rfl
theorem test_decode_reserved9 : decode [0x09] = .ok .reserved9 := by rfl
theorem test_decode_reservedA : decode [0x0A] = .ok .reservedA := by rfl
theorem test_decode_reservedB : decode [0x0B] = .ok .reservedB := by rfl
theorem test_decode_reservedC : decode [0x0C] = .ok .reservedC := by rfl
theorem test_decode_reservedD : decode [0x0D] = .ok .reservedD := by rfl
theorem test_decode_reservedE : decode [0x0E] = .ok .reservedE := by rfl
theorem test_decode_reservedF : decode [0x0F] = .ok .reservedF := by rfl
/-- The frame of S1, corrected (C1). -/
theorem test_decode_frame : decode [0xA4, 0x03, 0x4A, 0x01, 0x02, 0xEE] = .ok (.frame [0x4A, 0x01, 0x02] 0xEE) := by rfl
/-- The frame of V2 with `L = 0`. -/
theorem test_decode_frame_empty : decode [0xA4, 0x00, 0xA4] = .ok (.frame [] 0xA4) := by rfl
theorem test_decode_not_a_request : decode [0x94] = .error (.notARequest 0x94) := by rfl
theorem test_decode_truncated : decode [0x02, 0x4A, 0x02, 0x01] = .error (.truncated 2) := by rfl
theorem test_decode_empty : decode [] = .error .empty := by rfl
theorem test_encode_accLoad : encode (.accLoad 0 0xFA 1000) = [0x08, 0x00, 0xFA, 0xE8, 0x07] := by decide

/-! ### One step each, expected results from the spec's vectors -/

/-- Section 2.5, step 5. -/
theorem test_nop : after .nop atType = some { atType with results := [.pending] } := by decide
/-- Section 2.5, step 8. -/
theorem test_reset_drops_frame : (after .reset { atType with acc := [{ prev := 7, cum := 7 }] }).map
    (fun t => (t.rxState, t.rxCnt, t.rxTimer, t.acc, t.results)) =
    some (.awaitSync, 0, 0, [{ prev := 0, cum := 0 }], [.pending]) := by decide
/-- E1. -/
theorem test_enc : (after (.enc 0x4A [0x01, 0x02]) State.reset).map (·.results) =
    some [.encoded [0xA4, 0x03, 0x4A, 0x01, 0x02, 0xEE]] := by decide
/-- Section 2.1: 13 payload bytes when `CAP = 16`. -/
theorem test_enc_refused : refusalOf (exec (.enc 0x4A (List.replicate 13 0)) State.reset) = some (.payloadTooLong 13) := by
  decide
/-- S1, step 7. -/
theorem test_decByte_decoded : (after (.decByte 0xEE) atChecksum).map (fun t => (t.results, t.rxState, t.rxCnt, t.rxTimer)) =
    some ([.decoded 0x03 [0x4A, 0x01, 0x02] 0x4A], .awaitSync, 0, 3) := by decide
/-- V1k: the size check ranks above the compare. -/
theorem test_decByte_too_long : (after (.decByte 0xEE) atCapacity).map (·.results) =
    some [.error .packetSizeExceeded] := by decide
/-- T4, step 7. -/
theorem test_decTick_mid_frame : (after .decTick { atType with rxTimer := 1 }).map
    (fun t => (t.results, t.rxState, t.rxCnt, t.rxTimer)) =
    some ([.error .timeoutMidMessage], .awaitSync, 0, 0) := by decide
/-- T2, step 4. -/
theorem test_decTick_idle : (after .decTick { State.reset with rxTimer := 1 }).map (fun t => (t.results, t.rxTimer)) =
    some ([.noMessage], 0) := by decide
/-- T7, step 6: the partial frame is kept. -/
theorem test_decArm : after .decArm { atType with rxTimer := 1 } = some { atType with results := [.pending] } := by decide
/-- T8, step 5. -/
theorem test_decAbort : (after .decAbort atChecksum).map (fun t => (t.results, t.rxState, t.rxCnt, t.rxTimer)) =
    some ([.pending], .awaitSync, 0, 0) := by decide
/-- A2f: no sign is involved. -/
theorem test_accUpdate_back : (after (.accUpdate 0 0x7F) (withAcc 0x80 0xA)).map (·.results) =
    some [.acc 0x7F 0x109] := by decide
/-- A2h: the wide total wraps. -/
theorem test_accUpdate_wrap : (after (.accUpdate 0 0x04) (withAcc 0x05 0xFFFFFF10)).map (·.acc) =
    some [{ prev := 0x04, cum := 0x0F }] := by decide
/-- S2, step 1. -/
theorem test_accLoad : (after (.accLoad 0 0xFA 0) State.reset).map (fun t => (t.results, t.acc)) =
    some ([.acc 0xFA 0], [{ prev := 0xFA, cum := 0 }]) := by decide
/-- Section 2.4: `ACC_LOAD 2, 00, 0` when `N_ACC = 2`. -/
theorem test_accLoad_refused : refusalOf (exec (.accLoad 2 0 0) (State.resetWith { Params.ofVectors with nAcc := 2 })) =
    some (.noSuchAccumulator 2) := by decide
/-- Section 2.5: refused. -/
theorem test_reserved9 : refusalOf (exec .reserved9 State.reset) = some (.reservedCode 0x9) := by decide
/-- Section 2.5: refused. -/
theorem test_reservedF : refusalOf (exec .reservedF State.reset) = some (.reservedCode 0xF) := by decide
/-- V5: the second frame does not fit `CAP = 4`, and is dropped at its fifth byte. -/
theorem test_frame_too_long : (after (.frame [0x4A, 0x01] 0xED) (State.resetWith { Params.ofVectors with cap := 4 })).map
    (·.results) = some [.pending, .pending, .pending, .pending, .error .packetSizeExceeded] := by decide
/-- S1b: the frame as the source prints it. -/
theorem test_frame_bad_checksum : (after (.frame [0x4A, 0x01, 0x02] 0x48) State.reset).map (·.results) =
    some [.pending, .pending, .pending, .pending, .pending, .error .badChecksum] := by decide
/-- A request in the queue is run by the next step (log 5). -/
theorem test_step_runs_word : (nextState (step (State.reset.withFetchWord 16 0xA403))).map
    (fun t => (t.results, t.rxState, t.rxCnt, t.pending)) = some ([.pending], .readLength, 1, []) := by decide

/-! ### Witnesses: the hypotheses of each obligation can be met, at the edges of their ranges -/

theorem valid_vectors : Params.ofVectors.Valid := by decide
/-- Both ends of the ranges of R7. -/
theorem valid_smallest : ({ cap := 4, tByte := 1, accW := 9, nAcc := 1 } : Params).Valid := by decide
theorem valid_largest : ({ cap := 258, tByte := 7, accW := 64, nAcc := 16 } : Params).Valid := by decide

theorem inv_reset_state : Inv State.reset := by constructor <;> decide
theorem inv_atLength : Inv atLength := by constructor <;> decide
theorem inv_atType : Inv atType := by constructor <;> decide
theorem inv_atChecksum : Inv atChecksum := by constructor <;> decide
theorem inv_atCapacity : Inv atCapacity := by constructor <;> decide

/-- Every operation whose precondition holds has a next state here: the hypotheses `exec i s = .next t`. -/
theorem witness_exec_next :
    (∃ t, exec .nop atType = .next t) ∧ (∃ t, exec .reset atType = .next t) ∧
    (∃ t, exec (.enc 0x4A [0x01]) atType = .next t) ∧ (∃ t, exec (.decByte 0x4A) atType = .next t) ∧
    (∃ t, exec .decTick atType = .next t) ∧ (∃ t, exec .decArm atType = .next t) ∧
    (∃ t, exec .decAbort atType = .next t) ∧ (∃ t, exec (.accUpdate 0 0x07) atType = .next t) ∧
    (∃ t, exec (.accLoad 0 0x07 9) atType = .next t) ∧
    (∃ t, exec (.frame [0x4A] 0xEF) State.reset = .next t) :=
  ⟨⟨_, rfl⟩, ⟨_, rfl⟩, ⟨_, rfl⟩, ⟨_, rfl⟩, ⟨_, rfl⟩, ⟨_, rfl⟩, ⟨_, rfl⟩, ⟨_, rfl⟩, ⟨_, rfl⟩, ⟨_, rfl⟩⟩

/-- `ResetValues`. -/
theorem witness_ResetValues : Params.ofVectors.Valid ∧ 0 < Params.ofVectors.nAcc ∧ Inv atChecksum ∧
    ∃ t, exec .reset atChecksum = .next t := ⟨by decide, by decide, inv_atChecksum, _, rfl⟩
/-- `EncReturnsWireFrame`, at the longest payload for `CAP = 16` and for `CAP = 258`. -/
theorem witness_EncReturnsWireFrame : (List.replicate 12 (0x01 : Byte)).length ≤ min 254 (State.reset.cfg.cap - 4) ∧
    (List.replicate 254 (0x01 : Byte)).length ≤ min 254 (258 - 4) := ⟨by decide, by rw [List.length_replicate]; decide⟩
/-- `EncRefusesLongPayload`, one byte more. -/
theorem witness_EncRefusesLongPayload : min 254 (State.reset.cfg.cap - 4) < (List.replicate 13 (0x01 : Byte)).length := by
  decide
/-- `EncLengthAndInjective`, `EncMakesExactlyTheFrames`. -/
theorem witness_EncLengthAndInjective : (List.replicate 254 (0x01 : Byte)).length ≤ 254 ∧
    encodeFrame 0x4A [0x01] = encodeFrame 0x4A [0x01] := ⟨by rw [List.length_replicate], rfl⟩
theorem witness_EncMakesExactlyTheFrames : IsFrame (encodeFrame 0x4A [0x01, 0x02]) ∧
    (encodeFrame 0x4A [0x01, 0x02]).length - 4 ≤ maxPayload Params.ofVectors :=
  ⟨⟨by decide, by decide, ⟨0x03, by decide, by decide, by decide⟩, by decide⟩, by decide⟩
theorem witness_DecByteMissingSync : State.reset.rxState = .awaitSync ∧ (0xA5 : Byte) ≠ 0xA4#8 := by decide
theorem witness_DecByteBeginsFrame : State.reset.cfg.Valid ∧ State.reset.rxState = .awaitSync := by decide
theorem witness_DecByteTakesLength : atLength.cfg.Valid ∧ atLength.rxState = .readLength := by decide
/-- `DecByteTooLong`: the arm, and a frame one byte too long for `CAP = 5`. -/
theorem witness_DecByteTooLong : atCapacity.rxState = .readBody ∧ atCapacity.rxCnt + 1 > atCapacity.cfg.cap ∧
    (State.resetWith atCapacity.cfg).cfg.Valid ∧ (State.resetWith atCapacity.cfg).rxState = .awaitSync ∧
    [(0x4A : Byte), 0x01, 0x02].length + 2 = (State.resetWith atCapacity.cfg).cfg.cap ∧
    (State.resetWith atCapacity.cfg).cfg.cap < (0x03 : Byte).toNat + 3 := by decide
/-- `DecByteTakesBody`: the last body byte of a frame (`rx_cnt = rx_len + 1`). -/
theorem witness_DecByteTakesBody : ({ atChecksum with rxCnt := 4 } : State).rxState = .readBody ∧ 4 + 1 ≤ atChecksum.cfg.cap ∧
    4 < atChecksum.rxLen.toNat + 2 := by decide
/-- `DecByteAcceptsFrame`, with a body. -/
theorem witness_DecByteAcceptsFrame : atChecksum.rxState = .readBody ∧ atChecksum.rxCnt + 1 ≤ atChecksum.cfg.cap ∧
    atChecksum.rxCnt = atChecksum.rxLen.toNat + 2 ∧ 1 ≤ atChecksum.rxLen.toNat := by decide
/-- `DecByteAcceptsFrame` and `DecByteAcceptsEmptyFrame`, with `L = 0`. -/
theorem witness_DecByteAcceptsEmptyFrame : atEmptyChecksum.rxState = .readBody ∧
    atEmptyChecksum.rxCnt + 1 ≤ atEmptyChecksum.cfg.cap ∧ atEmptyChecksum.rxCnt = atEmptyChecksum.rxLen.toNat + 2 ∧
    atEmptyChecksum.rxLen.toNat = 0 := by decide
theorem witness_DecByteBadChecksum : atChecksum.rxState = .readBody ∧ atChecksum.rxCnt + 1 ≤ atChecksum.cfg.cap ∧
    atChecksum.rxCnt = atChecksum.rxLen.toNat + 2 ∧ (0xEF : Byte) ≠ atChecksum.rxXor := by decide
/-- `ByteTestsInOrder`, its clauses over `DEC_TICK`. -/
theorem witness_ByteTestsInOrder_tick :
    (Inv { State.reset with rxTimer := 1 } ∧
      ∃ t, exec .decTick { State.reset with rxTimer := 1 } = .next t ∧ t.results = [.noMessage]) ∧
    (Inv { atType with rxTimer := 1 } ∧
      ∃ t, exec .decTick { atType with rxTimer := 1 } = .next t ∧ t.results = [.error .timeoutMidMessage]) :=
  ⟨⟨by constructor <;> decide, _, rfl, rfl⟩, ⟨by constructor <;> decide, _, rfl, rfl⟩⟩
/-- `ByteTestsInOrder`, its clauses over `DEC_BYTE`. -/
theorem witness_ByteTestsInOrder :
    (Inv State.reset ∧ State.reset.rxState = .awaitSync ∧ ∃ t, exec (.decByte 0x00) State.reset = .next t) ∧
    (Inv atCapacity ∧ atCapacity.rxState = .readBody ∧ atCapacity.rxCnt + 1 > atCapacity.cfg.cap ∧
      ∃ t, exec (.decByte 0xEE) atCapacity = .next t) ∧
    (Inv atChecksum ∧ ∃ t, exec (.decByte 0xEF) atChecksum = .next t ∧ t.results = [.error .badChecksum]) :=
  ⟨⟨inv_reset_state, rfl, _, rfl⟩, ⟨inv_atCapacity, rfl, by decide, _, rfl⟩, ⟨inv_atChecksum, _, rfl, rfl⟩⟩
/-- `DecTickCountsDown`: each row, at the edges 0, 1, 2. -/
theorem witness_DecTickCountsDown : State.reset.rxTimer = 0 ∧ 1 < ({ atType with rxTimer := 2 } : State).rxTimer ∧
    (({ State.reset with rxTimer := 1 } : State).rxTimer = 1 ∧ State.reset.rxCnt = 0) ∧
    (({ atLength with rxTimer := 1 } : State).rxTimer = 1 ∧ 0 < atLength.rxCnt) := by decide
/-- `OutcomeLeavesDecoderIdle`. -/
theorem witness_OutcomeLeavesDecoderIdle : Inv atChecksum ∧
    ∃ t, exec (.decByte 0xEF) atChecksum = .next t ∧ t.results ≠ [.pending] := ⟨inv_atChecksum, _, rfl, by decide⟩
/-- `LapseAtTheLastTick`, both clauses. -/
theorem witness_LapseAtTheLastTick : atType.rxTimer = 2 + 1 ∧ ({ atType with rxTimer := 1 } : State).rxTimer = 0 + 1 ∧
    State.reset.rxTimer = 0 := by decide
/-- `AcceptanceLaw`: its hypotheses, and both sides at the shortest frame, `L = 0` (vector V2). -/
theorem witness_AcceptanceLaw : (State.reset.cfg.Valid ∧ State.reset.rxState = .awaitSync) ∧
    ([] : List Byte).length = (0x00 : Byte).toNat ∧ xorAll [0xA4#8, 0x00] = 0xA4 ∧
    ∃ t ty, runProgram (feed [0xA4, 0x00, 0xA4]) State.reset = .next t ∧
      t.results = [.pending, .pending, .decoded 0x00 [] ty] := ⟨by decide, rfl, by decide, _, _, rfl, rfl⟩
/-- `RoundTripWithoutLapse`: two ticks behind every byte of a frame, `T_BYTE = 3` (vector T3). -/
theorem witness_RoundTripWithoutLapse : State.reset.cfg.Valid ∧ State.reset.rxState = .awaitSync ∧
    payloadAllowed State.reset.cfg [(0x01 : Byte), 0x02].length ∧
    encodeFrame 0x4A [0x01, 0x02] = [0xA4, 0x03, 0x4A, 0x01, 0x02] ++ [0xEE] ∧
    [2, 2, 2, 2, 2].length = [(0xA4 : Byte), 0x03, 0x4A, 0x01, 0x02].length ∧
    ∀ g ∈ [2, 2, 2, 2, 2], g < State.reset.cfg.tByte := by decide
theorem witness_SyncLossRecovery : State.reset.cfg.Valid ∧ State.reset.rxState = .awaitSync ∧ State.reset.rxCnt = 0 ∧
    (∀ b ∈ [(0x00 : Byte), 0xFF], b ≠ 0xA4#8) ∧ [(0x00 : Byte), 0xFF] ≠ [] ∧
    payloadAllowed State.reset.cfg [(0x01 : Byte), 0x02].length := by decide
/-- `SingleBitErrorCaught`, at the first offset and at the checksum byte. -/
theorem witness_SingleBitErrorCaught : State.reset.cfg.Valid ∧ State.reset.rxState = .awaitSync ∧
    payloadAllowed State.reset.cfg [(0x01 : Byte), 0x02].length ∧
    (encodeFrame 0x4A [0x01, 0x02])[2]? = some 0x4A ∧ (encodeFrame 0x4A [0x01, 0x02])[5]? = some 0xEE ∧ 7 < 8 := by decide
theorem witness_DoubleErrorMissed : State.reset.cfg.Valid ∧ State.reset.rxState = .awaitSync ∧
    [(0x4A : Byte), 0x01].length + 3 ≤ State.reset.cfg.cap ∧ (0 ≠ 1) ∧ [(0x4A : Byte), 0x01][0]? = some 0x4A ∧
    [(0x4A : Byte), 0x01][1]? = some 0x01 := by decide
theorem witness_FrameCompletes : State.reset.cfg.Valid := by decide
/-- `FrameFromIdle`: the longest body that fits `CAP = 16`, and one byte more. -/
theorem witness_FrameFromIdle :
    (∃ t, exec (.frame [0x4A] 0xEF) State.reset = .next t) ∧
    (List.replicate 13 (0 : Byte)).length + 3 ≤ State.reset.cfg.cap ∧
    State.reset.cfg.cap < (List.replicate 14 (0 : Byte)).length + 3 := ⟨⟨_, rfl⟩, by decide, by decide⟩
/-- `AccUpdateFoldsSample`, `AccLoadSetsPair`: the last instance and the largest total. -/
theorem witness_AccUpdateFoldsSample : (0 : BitVec 4).toNat < State.reset.cfg.nAcc ∧
    State.reset.acc.length = State.reset.cfg.nAcc := by decide
theorem witness_AccLoadSetsPair : (0 : BitVec 4).toNat < State.reset.cfg.nAcc ∧
    State.reset.acc.length = State.reset.cfg.nAcc ∧ 0xFFFFFFFF < 2 ^ State.reset.cfg.accW := by decide
theorem witness_AccLoadTakesFieldBits : (0 : BitVec 4).toNat < State.reset.acc.length := by decide
theorem witness_AccRefusesMissingInstance : State.reset.acc.length = State.reset.cfg.nAcc ∧
    State.reset.cfg.nAcc ≤ (1 : BitVec 4).toNat := by decide
/-- `AccCornerCases`: each clause (A2i, A2c, A2h, A2g). -/
theorem witness_AccCornerCases :
    ((withAcc 0x05 0xFFFFFFFF).acc[0]? = some { prev := 0x05, cum := 0xFFFFFFFF } ∧ 0xFFFFFFFF < 2 ^ State.reset.cfg.accW ∧
      8 < State.reset.cfg.accW) ∧
    (0x00 : Byte).toNat < (0xFF : Byte).toNat ∧ (0x04 : Byte) = 0x05 - 1 ∧
    ((0x00 : Byte) = 0xFF + 1 ∧ 0xFFFFFFFF = 2 ^ State.reset.cfg.accW - 1) := by decide
/-- `SumLaw` (S2), `AdvanceSeenModulo256`. -/
theorem witness_SumLaw : (withAcc 0xFA 0).acc[(0 : BitVec 4).toNat]? = some { prev := 0xFA, cum := 0 } ∧
    0 < 2 ^ (withAcc 0xFA 0).cfg.accW ∧
    0 + (sampleDeltas 0xFA [0xFC, 0xFE, 0x01, 0x03]).sum = 9 := by decide
/-- `LateSampleCountsForward`: the example of R204, samples 2 then 4 after 3. -/
theorem witness_LateSampleCountsForward :
    (withAcc 0x03 0).acc[(0 : BitVec 4).toNat]? = some { prev := 0x03, cum := 0 } ∧ 0 < 1 ∧ 1 < 256 ∧ 1 + 1 < 256 := by decide
theorem witness_FirstSampleAddsItself : State.reset.cfg.Valid ∧ (0 : BitVec 4).toNat < State.reset.cfg.nAcc := by decide
/-- `AccInstancesIndependent`, its three clauses. -/
theorem witness_AccInstancesIndependent :
    ((Instr.accUpdate 0 0x07).accIndex = some 0 ∧ ∃ t, exec (.accUpdate 0 0x07) State.reset = .next t) ∧
    (atType.cfg = State.reset.cfg ∧ atType.acc[(0 : BitVec 4).toNat]? = State.reset.acc[(0 : BitVec 4).toNat]?) ∧
    (Instr.decTick ≠ .reset ∧ Instr.decTick.accIndex = none ∧ ∃ t, exec .decTick atType = .next t) :=
  ⟨⟨rfl, _, rfl⟩, ⟨rfl, rfl⟩, ⟨by decide, rfl, _, rfl⟩⟩
/-- `BufferFrame`, the second part: a byte that is stored and one that is not. -/
theorem witness_BufferFrame : storeIndex (byteArm 0x4A atType) atType = some 2 ∧
    storeIndex (byteArm 0xEE atChecksum) atChecksum = none ∧ ∃ t, exec (.decByte 0x4A) atType = .next t :=
  ⟨by decide, by decide, _, rfl⟩
/-- `PartsCommute`: a decoder operation and an accumulator operation (P5). -/
theorem witness_PartsCommute : (Instr.decByte 0xA4).isDecoder = true ∧ (Instr.accUpdate 0 0xFC).accIndex.isSome = true ∧
    ∃ s1 s2, exec (.decByte 0xA4) State.reset = .next s1 ∧ exec (.accUpdate 0 0xFC) s1 = .next s2 :=
  ⟨rfl, rfl, _, _, rfl, rfl⟩
/-- `PartsCommute`: an `ENC`, and two instances. -/
theorem witness_PartsCommute_others :
    (∃ s1 s2, exec .reset atType = .next s1 ∧ exec (.enc 0x4A []) s1 = .next s2) ∧
    ((Instr.accUpdate 0 0x07).accIndex = some 0 ∧ (Instr.accLoad 1 0x07 0).accIndex = some 1 ∧ (0 : BitVec 4) ≠ 1 ∧
      ∃ s1 s2, exec (.accUpdate 0 0x07) (State.resetWith { Params.ofVectors with nAcc := 2 }) = .next s1 ∧
        exec (.accLoad 1 0x07 0) s1 = .next s2) :=
  ⟨⟨_, _, rfl, rfl⟩, rfl, rfl, by decide, _, _, rfl, rfl⟩
/-- `StaleBytesUnobservable`: the same state with another byte behind the frame. -/
theorem witness_StaleBytesUnobservable : Inv { atLength with rxBuf := [(0, 0xA4), (7, 0x55)] } ∧ Inv atLength ∧
    AgreeOnFrame { atLength with rxBuf := [(0, 0xA4), (7, 0x55)] } atLength :=
  ⟨by constructor <;> decide, inv_atLength, rfl, by decide⟩
/-- `StepKeepsInvariants`: a step that runs an operation. -/
theorem witness_StepKeepsInvariants : Inv (State.reset.withFetchWord 8 0x05) ∧
    ∃ t, step (State.reset.withFetchWord 8 0x05) = .next t := ⟨by constructor <;> decide, _, rfl⟩
theorem witness_ResetHasInvariants : ({ cap := 4, tByte := 1, accW := 9, nAcc := 16 } : Params).Valid := by decide
/-- `OperationsTotal`: a precondition that holds and one that fails. -/
theorem witness_OperationsTotal : Inv State.reset ∧ (Instr.enc 0x4A [0x01]).Meets State.reset.cfg ∧
    ¬ (Instr.accUpdate 1 0x00).Meets State.reset.cfg :=
  ⟨inv_reset_state, by show payloadAllowed _ _; decide, by show ¬ (_ < _); decide⟩
/-- `StepRunsOldestRequest`. -/
theorem witness_StepRunsOldestRequest : ({ State.reset with pending := [[0x03, 0xA4], [0x05]] } : State).pending =
    [0x03, 0xA4] :: [[0x05]] ∧ decode [0x03, 0xA4] = .ok (.decByte 0xA4) := ⟨rfl, rfl⟩
/-- `StepWithoutOperation`, both clauses. -/
theorem witness_StepWithoutOperation : State.reset.pending = [] ∧
    ({ State.reset with pending := [[0x94]] } : State).pending = [0x94] :: [] ∧
    decode [0x94] = .error (.notARequest 0x94) := ⟨rfl, rfl, rfl⟩
/-- `DecodeOfEncode`, at the longest payload and the longest body the encoding holds. -/
theorem witness_DecodeOfEncode : (Instr.enc 0xFF (List.replicate 255 0)).WellFormed ∧
    (Instr.frame (List.replicate 255 0) 0).WellFormed := by
  rw [wellFormed_enc, wellFormed_frame, List.length_replicate]; decide
/-- `ReadAttemptLeavesNothing`: a read attempt that returns (S1, last byte). -/
theorem witness_ReadAttemptLeavesNothing : Inv atChecksum ∧
    ∃ r t rest, decodeNext [.tick, .byte 0xEE, .tick] atChecksum = .returned r t rest := ⟨inv_atChecksum, _, _, _, rfl⟩
/-- `TimeFreeReadingCovers`, both clauses. -/
theorem witness_TimeFreeReadingCovers : (∃ t, exec .decTick { atType with rxTimer := 1 } = .next t) ∧
    (Instr.decByte 0x4A ≠ .decTick ∧ ∃ t, exec (.decByte 0x4A) atType = .next t) := ⟨⟨_, rfl⟩, by decide, _, rfl⟩
/-- `CodeSelectsOperation`: a code and a wire frame. -/
theorem witness_CodeSelectsOperation : decode [0x07, 0x01, 0x12] = .ok (.accUpdate 1 0x12) ∧
    decode [0xA4, 0x00, 0xA4] = .ok (.frame [] 0xA4) := ⟨rfl, rfl⟩
/-- `DecAbortDropsFrame`, its second clause. -/
theorem witness_DecAbortDropsFrame : (∃ t, exec .decAbort atChecksum = .next t) ∧ ∃ u, exec .reset atChecksum = .next u :=
  ⟨⟨_, rfl⟩, ⟨_, rfl⟩⟩
/-- `TimerWriters`: the outcome behind which the countdown runs on. -/
theorem witness_TimerWriters_outcome : Inv atChecksum ∧
    ∃ t, exec (.decByte 0xEE) atChecksum = .next t ∧ t.results ≠ [.pending] := ⟨inv_atChecksum, _, rfl, by decide⟩
/-- `TimerWriters`: the premise of its clause for other operations, an `ENC` and an accumulator operation. -/
theorem witness_TimerWriters : (∃ t, exec (.enc 0x4A []) atType = .next t) ∧ (Instr.accLoad 0 0 0).accIndex.isSome = true :=
  ⟨⟨_, rfl⟩, rfl⟩

end Sys2Proof.Tests.Slice0
end

section
/-! SUPPORT. What a step does with the oldest request (`00_scope.md` R9), and that every operation whose precondition holds
has a next state while every other one is refused (R10). -/

namespace Sys2Proof.Machine

/-! ### Steps -/

/-- Settles O51: fetching gives the oldest request, and its decoding selects the arm of `step` that runs the operation. -/
theorem stepRunsOldestRequest : Obligations.StepRunsOldestRequest := by
  intro s request rest i hpending hdecode
  simp only [step, takeRequest_cons hpending, hdecode]

/-- Settles O52: with nothing to fetch the step is `idle`; a request that does not decode is refused with its reason. -/
theorem stepWithoutOperation : Obligations.StepWithoutOperation := by
  refine ⟨fun s hpending => ?_, fun s request rest why hpending hdecode => ?_⟩
  · simp only [step, takeRequest_nil hpending, idle]
  · simp only [step, takeRequest_cons hpending, hdecode]

/-! ### What each operation with a precondition does on either side of it -/

theorem execEnc_of_allowed {t : Byte} {p : List Byte} {s : State} (h : payloadAllowed s.cfg p.length) :
    execEnc t p s = reply (.encoded (encodeFrame t p)) s := if_pos h

theorem execEnc_of_not_allowed {t : Byte} {p : List Byte} {s : State} (h : ¬ payloadAllowed s.cfg p.length) :
    execEnc t p s = .refused (.payloadTooLong p.length) := if_neg h

/-- An accumulator operation completes on an index that names a register pair (R143). -/
theorem updateAcc_next_of_lt {k : BitVec 4} {s : State} (h : k.toNat < s.acc.length) (f : Acc → Acc) :
    ∃ t, updateAcc k f s = .next t :=
  ⟨_, updateAcc_of_some (List.getElem?_eq_getElem h) f⟩

/-- An accumulator operation is refused on any other index (R143). -/
theorem updateAcc_refused_of_not_lt {k : BitVec 4} {s : State} (h : ¬ k.toNat < s.acc.length) (f : Acc → Acc) :
    updateAcc k f s = .refused (.noSuchAccumulator k) :=
  updateAcc_of_none (List.getElem?_eq_none (Nat.le_of_not_lt h)) f

/-! ### The decoder's operations complete -/

/-- The four rows of `DEC_TICK` (R123 to R125). -/
theorem execDecTick_cases (s : State) :
    (s.rxTimer = 0 ∧ execDecTick s = reply .pending s) ∨
    (1 < s.rxTimer ∧ execDecTick s = reply .pending (setTimer (s.rxTimer - 1) s)) ∨
    (s.rxTimer = 1 ∧ s.rxCnt = 0 ∧ execDecTick s = reply .noMessage (setTimer 0 s)) ∨
    (s.rxTimer = 1 ∧ s.rxCnt ≠ 0 ∧ execDecTick s = raiseError .timeoutMidMessage (setTimer 0 s)) := by
  unfold execDecTick lapse
  split_ifs with hstopped hrunning hempty
  · exact .inl ⟨hstopped, rfl⟩
  · exact .inr (.inl ⟨hrunning, rfl⟩)
  · exact .inr (.inr (.inl ⟨by omega, hempty, rfl⟩))
  · exact .inr (.inr (.inr ⟨by omega, hempty, rfl⟩))

theorem execDecTick_next (s : State) : ∃ t, execDecTick s = .next t := by
  rcases execDecTick_cases s with ⟨-, h⟩ | ⟨-, h⟩ | ⟨-, -, h⟩ | ⟨-, -, h⟩ <;> exact ⟨_, h⟩

/-- Feeding bytes completes in every state with valid parameters: each `DEC_BYTE` completes and keeps the parameters, so
the bytes behind it meet valid parameters again. One result comes back for each byte, and only the decoder is touched. -/
theorem feedBytes_frame (bs : List Byte) (s : State) (hp : s.cfg.Valid) :
    ∃ t, feedBytes bs s = .next t ∧ t.results.length = bs.length ∧ t.cfg = s.cfg ∧ t.acc = s.acc ∧
      t.pending = s.pending := by
  induction bs generalizing s with
  | nil => exact ⟨_, feedBytes_nil s, rfl, rfl, rfl, rfl⟩
  | cons b bs ih =>
    obtain ⟨s1, r, h1, hr, hcfg, hacc, hpending, -⟩ := execDecByte_frame b s hp
    obtain ⟨s2, h2, hlen, hcfg', hacc', hpending'⟩ := ih s1 (hcfg ▸ hp)
    refine ⟨_, feedBytes_cons h1 h2, ?_, hcfg'.trans hcfg, hacc'.trans hacc, hpending'.trans hpending⟩
    simp [hr, hlen, Nat.add_comm]

/-! ### Every operation is total on its precondition -/

/-- R10, first half: with valid parameters and `N_ACC` register pairs, an operation whose precondition holds has
a next state. -/
theorem exec_next_of_meets {i : Instr} {s : State} (hp : s.cfg.Valid) (hacc : s.acc.length = s.cfg.nAcc)
    (h : i.Meets s.cfg) : ∃ t, exec i s = .next t := by
  cases i with
  | nop | reset | decArm | decAbort => exact ⟨_, rfl⟩
  | enc t p => exact ⟨_, execEnc_of_allowed h⟩
  | decByte d =>
    obtain ⟨t, -, ht, -⟩ := execDecByte_frame d s hp
    exact ⟨t, ht⟩
  | decTick => exact execDecTick_next s
  | accUpdate | accLoad => exact updateAcc_next_of_lt (hacc ▸ h) _
  | frame body cs =>
    obtain ⟨t, ht, -⟩ := feedBytes_frame (wireFrame body cs) s hp
    exact ⟨t, ht⟩
  | reserved9 | reservedA | reservedB | reservedC | reservedD | reservedE | reservedF => exact h.elim

/-- R10, second half: an operation whose precondition fails is refused. -/
theorem exec_refused_of_not_meets {i : Instr} {s : State} (hacc : s.acc.length = s.cfg.nAcc)
    (h : ¬ i.Meets s.cfg) : ∃ r, exec i s = .refused r := by
  cases i with
  | enc t p => exact ⟨_, execEnc_of_not_allowed h⟩
  | accUpdate | accLoad => exact ⟨_, updateAcc_refused_of_not_lt (hacc ▸ h) _⟩
  | reserved9 | reservedA | reservedB | reservedC | reservedD | reservedE | reservedF => exact ⟨_, rfl⟩
  | nop | reset | decByte | decTick | decArm | decAbort | frame => exact (h trivial).elim

/-- Settles O48: the precondition decides between a next state and a refusal, so no case is left for a fault. -/
theorem operationsTotal : Obligations.OperationsTotal := by
  intro i s hinv
  have hnext : i.Meets s.cfg → ∃ t, exec i s = .next t := exec_next_of_meets hinv.params hinv.accCount
  have hrefused : ¬ i.Meets s.cfg → ∃ r, exec i s = .refused r := exec_refused_of_not_meets hinv.accCount
  refine ⟨hnext, hrefused, fun f hfault => ?_⟩
  by_cases h : i.Meets s.cfg
  · obtain ⟨t, ht⟩ := hnext h
    cases ht.symm.trans hfault
  · obtain ⟨r, hr⟩ := hrefused h
    cases hr.symm.trans hfault

end Sys2Proof.Machine
end

section
/-! SUPPORT. The invariants of `10_state.md` R28: one rule for each update of the state that keeps them, what `DEC_BYTE` does in
a state that has them, and that every operation and every step keeps them. -/

namespace Sys2Proof.Machine

/-! ### The updates that keep the invariants -/

/-- The invariants do not speak of the queue, the result port or the free values drawn. -/
theorem Inv.of_ports {s : State} (h : Inv s) (q : List (List Byte)) (r : List Result) (n : Nat) :
    Inv { s with pending := q, results := r, draws := n } := { h with }

/-- A countdown within its range that runs during a frame. -/
theorem Inv.setTimer {s : State} (h : Inv s) {v : Nat} (hv : v ≤ s.cfg.tByte) (hlive : 0 < s.rxCnt → 0 < v) :
    Inv (setTimer v s) :=
  { h with timerBound := hv, timerLive := hlive }

theorem Inv.tByte_pos {s : State} (h : Inv s) : 0 < s.cfg.tByte := by
  obtain ⟨-, -, htByte, -⟩ := h.params
  exact htByte

theorem Inv.reload {s : State} (h : Inv s) : Inv (Machine.setTimer s.cfg.tByte s) :=
  h.setTimer le_rfl fun _ => h.tByte_pos

/-- `ResetParse()` (R18): of a frame of no bytes R28 asks nothing but the zeros it writes. -/
theorem Inv.resetParse {s : State} (h : Inv s) : Inv (resetParse s) :=
  { h with
    awaitSync_iff := by simp
    readLength_iff := by simp
    readBody_iff := by simp
    fits := Nat.zero_le _
    written := by simp
    syncFirst := by simp
    checksum := rfl
    lengthByte := by simp
    noLength := fun _ => rfl
    timerLive := by simp }

/-- Any `N_ACC` pairs with totals of `ACC_W` bits. -/
theorem Inv.of_acc {s : State} (h : Inv s) {as : List Acc} (hlen : as.length = s.cfg.nAcc)
    (hwidth : ∀ a ∈ as, a.cum < 2 ^ s.cfg.accW) : Inv { s with acc := as } :=
  { h with accCount := hlen, accWidth := hwidth }

/-- The decoder as `RESET` and `DEC_ABORT` leave it (R128): with no frame in progress the countdown may stop. -/
theorem Inv.stopAndDrop {s : State} (h : Inv s) : Inv (Machine.setTimer 0 (Machine.resetParse s)) :=
  h.resetParse.setTimer (Nat.zero_le _) (by simp)

theorem Inv.resetRegisters {s : State} (h : Inv s) : Inv (resetRegisters s) := by
  refine h.stopAndDrop.of_acc (by simp) fun a ha => ?_
  obtain rfl := List.eq_of_mem_replicate ha
  exact Nat.two_pow_pos _

theorem Inv.reply {s t : State} (h : Inv s) {r : Result} (ht : reply r s = .next t) : Inv t := by
  obtain rfl := reply_eq_next ht
  exact h.of_ports _ _ _

theorem Inv.raiseError {s t : State} (h : Inv s) {k : ErrorKind} (ht : raiseError k s = .next t) : Inv t := by
  rcases errorState_cases k s with hs | hs <;> rw [Machine.raiseError, hs] at ht
  · exact h.reply ht
  · exact h.resetParse.reply ht

/-! ### `DEC_BYTE` in a state with the invariants -/

/-- What R110 tests before it takes an arm, arm by arm. -/
def ByteArm.Guard (d : Byte) (s : State) : ByteArm → Prop
  | .missingSync => s.rxState = .awaitSync ∧ d ≠ Config.sync
  | .beginFrame => s.rxState = .awaitSync ∧ d = Config.sync
  | .takeLength => s.rxState = .readLength
  | .tooLong => s.rxState = .readBody ∧ s.cfg.cap < s.rxCnt + 1
  | .takeBody => s.rxState = .readBody ∧ s.rxCnt + 1 ≤ s.cfg.cap ∧ s.rxCnt < s.rxLen.toNat + 2
  | .accept => s.rxState = .readBody ∧ s.rxCnt + 1 ≤ s.cfg.cap ∧ s.rxLen.toNat + 2 ≤ s.rxCnt ∧ d = s.rxXor
  | .badChecksum => s.rxState = .readBody ∧ s.rxCnt + 1 ≤ s.cfg.cap ∧ s.rxLen.toNat + 2 ≤ s.rxCnt ∧ d ≠ s.rxXor

theorem byteArm_guard (d : Byte) (s : State) : (byteArm d s).Guard d s := by
  unfold byteArm
  split
  next hst =>
    split_ifs with hd
    · exact ⟨hst, hd⟩
    · exact ⟨hst, not_not.1 hd⟩
  next hst => exact hst
  next hst =>
    split_ifs with hcap hbody hcs
    · exact ⟨hst, hcap⟩
    · exact ⟨hst, not_lt.1 hcap, hbody⟩
    · exact ⟨hst, not_lt.1 hcap, not_lt.1 hbody, hcs⟩
    · exact ⟨hst, not_lt.1 hcap, not_lt.1 hbody, hcs⟩

/-- The next byte `d` belongs to the frame in progress, the checksum byte aside. -/
structure NextOfFrame (d : Byte) (s : State) : Prop where
  fits : s.rxCnt < s.cfg.cap
  sync : s.rxCnt = 0 → d = Config.sync
  inLength : 2 ≤ s.rxCnt → s.rxCnt < s.rxLen.toNat + 2

/-- The three storing arms of R110 as one update: the byte goes to the buffer at `rx_cnt` and into the checksum. -/
def takeByte (d : Byte) (s : State) : State :=
  { s with
    rxBuf := s.rxBuf.write s.rxCnt d
    rxCnt := s.rxCnt + 1
    rxXor := s.rxXor ^^^ d
    rxLen := if s.rxCnt = 1 then d else s.rxLen
    rxState := if s.rxCnt = 0 then .readLength else .readBody }

/-- A storing arm stores at the fill count. -/
theorem storeIndex_eq_rxCnt {d : Byte} {s : State} (h : Inv s) {i : Nat} (hi : storeIndex (byteArm d s) s = some i) :
    i = s.rxCnt := by
  have hg := byteArm_guard d s
  cases harm : byteArm d s with rw [harm] at hi hg
  | beginFrame => cases hi; exact (h.awaitSync_iff.1 hg.1).symm
  | takeLength => cases hi; exact (h.readLength_iff.1 hg).symm
  | takeBody => cases hi; rfl
  | missingSync | tooLong | accept | badChecksum => cases hi

theorem nextOfFrame_of_storeIndex {d : Byte} {s : State} (h : Inv s) {i : Nat}
    (hi : storeIndex (byteArm d s) s = some i) : NextOfFrame d s := by
  have hfits : s.rxCnt < s.cfg.cap := storeIndex_eq_rxCnt h hi ▸ storeIndex_lt h.params hi
  have hg := byteArm_guard d s
  cases harm : byteArm d s with rw [harm] at hi hg
  | beginFrame =>
    have hcnt := h.awaitSync_iff.1 hg.1
    exact ⟨hfits, fun _ => hg.2, by omega⟩
  | takeLength =>
    have hcnt := h.readLength_iff.1 hg
    exact ⟨hfits, by omega, by omega⟩
  | takeBody =>
    obtain ⟨hst, -, hlen⟩ := hg
    have hcnt := h.readBody_iff.1 hst
    exact ⟨hfits, by omega, fun _ => hlen⟩
  | missingSync | tooLong | accept | badChecksum => cases hi

theorem Inv.rxXor_of_empty {s : State} (h : Inv s) (hcnt : s.rxCnt = 0) : s.rxXor = 0x00#8 := by
  rw [h.checksum, takenBytes, hcnt]; rfl

/-- A byte that is stored is taken into the frame. -/
theorem execDecByte_of_store {d : Byte} {s : State} (h : Inv s) {i : Nat} (hi : storeIndex (byteArm d s) s = some i) :
    execDecByte d s = reply .pending (takeByte d (setTimer s.cfg.tByte s)) := by
  rw [execDecByte_of_some hi (storeIndex_lt h.params hi), storeIndex_eq_rxCnt h hi]
  have hg := byteArm_guard d s
  cases harm : byteArm d s with rw [harm] at hi hg
  | beginFrame =>
    have hcnt := h.awaitSync_iff.1 hg.1
    simp [finishByte, takeByte, hcnt, h.rxXor_of_empty hcnt]
  | takeLength =>
    have hcnt := h.readLength_iff.1 hg
    simp [finishByte, takeByte, hcnt]
  | takeBody =>
    have hcnt := h.readBody_iff.1 hg.1
    have h0 : s.rxCnt ≠ 0 := by omega
    have h1 : s.rxCnt ≠ 1 := by omega
    simp [finishByte, takeByte, h0, h1, hg.1]
  | missingSync | tooLong | accept | badChecksum => cases hi

/-! ### The invariants and the taken byte -/

theorem takeByte_read_of_lt {d : Byte} {s : State} {i : Nat} (hi : i < s.rxCnt) :
    (takeByte d s).rxBuf.read i = s.rxBuf.read i :=
  Memory.read_write_of_ne _ _ (Nat.ne_of_lt hi)

theorem takeByte_read_rxCnt (d : Byte) (s : State) : (takeByte d s).rxBuf.read s.rxCnt = some d :=
  Memory.read_write_same _ _ _

theorem takenBytes_takeByte (d : Byte) (s : State) : takenBytes (takeByte d s) = takenBytes s ++ [d] := by
  have hold : ∀ i ∈ List.range s.rxCnt, bufByte (takeByte d s) i = bufByte s i := fun i hi =>
    bufByte_congr (takeByte_read_of_lt (List.mem_range.1 hi))
  have hnew : bufByte (takeByte d s) s.rxCnt = d := bufByte_of_read (takeByte_read_rxCnt d s)
  calc takenBytes (takeByte d s)
      = (List.range (s.rxCnt + 1)).map (bufByte (takeByte d s)) := rfl
    _ = takenBytes s ++ [d] := by rw [List.range_succ, List.map_append, List.map_congr_left hold]; simp [takenBytes, hnew]

/-- Taking a byte of the frame moves every clause of R28 from `rx_cnt` to `rx_cnt + 1`. -/
theorem Inv.takeByte {d : Byte} {s : State} (h : Inv s) (hd : NextOfFrame d s) (hlive : 0 < s.rxTimer) :
    Inv (takeByte d s) :=
  { h with
    awaitSync_iff := by simp only [Machine.takeByte]; split_ifs <;> simp
    readLength_iff := by simp only [Machine.takeByte]; split_ifs <;> simp [*]
    readBody_iff := by simp only [Machine.takeByte]; split_ifs <;> simp <;> omega
    fits := hd.fits
    written := fun i hi => by
      rcases Nat.lt_succ_iff_lt_or_eq.1 hi with hi | rfl
      · rw [takeByte_read_of_lt hi]; exact h.written i hi
      · rw [takeByte_read_rxCnt]; rfl
    syncFirst := fun _ => by
      rcases Nat.eq_zero_or_pos s.rxCnt with hcnt | hcnt
      · rw [← hcnt, takeByte_read_rxCnt, hd.sync hcnt]
      · rw [takeByte_read_of_lt hcnt, h.syncFirst hcnt]
    checksum := by rw [takenBytes_takeByte, xorAll_append, ← h.checksum]; simp [Machine.takeByte]
    lengthByte := fun hcnt => by
      rcases (Nat.le_of_lt_succ hcnt : 1 ≤ s.rxCnt).eq_or_lt with h1 | h2
      · simp [Machine.takeByte, ← h1]
      · have hne : s.rxCnt ≠ 1 := by omega
        rw [takeByte_read_of_lt h2, (h.lengthByte h2).1]
        simpa [Machine.takeByte, hne] using Nat.succ_le_of_lt (hd.inLength h2)
    noLength := fun hcnt => by
      have h0 : s.rxCnt = 0 := Nat.lt_one_iff.1 (Nat.lt_of_succ_lt_succ hcnt)
      simp [Machine.takeByte, h0, h.noLength]
    timerLive := fun _ => hlive
    bufForm := Memory.wf_write h.bufForm _ _
    bufRange := Memory.range_write h.bufRange hd.fits _ }

/-- Delivering a frame resets the parse state. -/
theorem Inv.deliver {s t : State} (h : Inv s) (ht : deliver s = .next t) : Inv t := by
  rcases deliver_cases s with ⟨_, _, -, hs⟩ | ⟨-, hs⟩ <;> rw [hs] at ht
  · exact h.resetParse.reply ht
  · exact (h.of_ports _ _ _).resetParse.reply ht

/-- An arm that stores nothing leaves the frame in progress or drops it. -/
theorem Inv.finishByte {s t : State} (h : Inv s) {arm : ByteArm} {d : Byte} (hn : storeIndex arm s = none)
    (ht : finishByte arm d s = .next t) : Inv t := by
  cases arm with
  | missingSync | tooLong | badChecksum => exact h.raiseError ht
  | accept => exact h.deliver ht
  | beginFrame | takeLength | takeBody => cases hn

theorem Inv.execDecByte {s t : State} (h : Inv s) {d : Byte} (ht : execDecByte d s = .next t) : Inv t := by
  cases hi : storeIndex (byteArm d s) s with
  | none =>
    rw [execDecByte_of_none hi] at ht
    exact h.reload.finishByte (by simpa using hi) ht
  | some i =>
    rw [execDecByte_of_store h hi] at ht
    obtain ⟨hfits, hsync, hlen⟩ := nextOfFrame_of_storeIndex h hi
    exact (h.reload.takeByte ⟨hfits, hsync, hlen⟩ h.tByte_pos).reply ht

theorem Inv.feedBytes {bs : List Byte} {s t : State} (h : Inv s) (ht : feedBytes bs s = .next t) : Inv t := by
  induction bs generalizing s t with
  | nil => cases ht; exact h.of_ports _ _ _
  | cons b bs ih =>
    obtain ⟨s1, s2, h1, h2, rfl⟩ := feedBytes_cons_cases ht
    exact (ih (h.execDecByte h1) h2).of_ports _ _ _

/-! ### Every other operation -/

theorem Inv.execDecTick {s t : State} (h : Inv s) (ht : execDecTick s = .next t) : Inv t := by
  have hbound := h.timerBound
  rcases execDecTick_cases s with ⟨-, hs⟩ | ⟨hrun, hs⟩ | ⟨-, hcnt, hs⟩ | ⟨-, -, hs⟩ <;> rw [hs] at ht
  · exact h.reply ht
  · exact (h.setTimer (by omega) (by omega)).reply ht
  · exact (h.setTimer (Nat.zero_le _) (by omega)).reply ht
  · exact h.stopAndDrop.reply ht

/-- A total of `ACC_W` bits written to one pair. -/
theorem Inv.updateAcc {s t : State} (h : Inv s) {k : BitVec 4} {f : Acc → Acc} (hf : ∀ a, (f a).cum < 2 ^ s.cfg.accW)
    (ht : updateAcc k f s = .next t) : Inv t := by
  obtain ⟨a, -, rfl⟩ := updateAcc_cases ht
  have hacc : Inv { s with acc := s.acc.set k.toNat (f a) } := by
    refine h.of_acc (by rw [List.length_set, h.accCount]) fun b hb => ?_
    rcases List.mem_or_eq_of_mem_set hb with hb | rfl
    · exact h.accWidth b hb
    · exact hf a
  exact hacc.of_ports _ _ _

theorem execEnc_eq_next {ty : Byte} {p : List Byte} {s t : State} (ht : execEnc ty p s = .next t) :
    t = { s with results := [.encoded (encodeFrame ty p)] } := by
  unfold execEnc at ht
  split at ht
  · exact reply_eq_next ht
  · cases ht

theorem Inv.exec {i : Instr} {s t : State} (h : Inv s) (ht : exec i s = .next t) : Inv t := by
  cases i with
  | nop => exact h.reply ht
  | reset => exact h.resetRegisters.reply ht
  | enc ty p => rw [execEnc_eq_next ht]; exact h.of_ports _ _ _
  | decByte d => exact h.execDecByte ht
  | decTick => exact h.execDecTick ht
  | decArm => exact h.reload.reply ht
  | decAbort => exact h.stopAndDrop.reply ht
  | accUpdate k d => exact h.updateAcc (fun _ => Nat.mod_lt _ (Nat.two_pow_pos _)) ht
  | accLoad k d c => exact h.updateAcc (fun _ => Nat.mod_lt _ (Nat.two_pow_pos _)) ht
  | frame body cs => exact h.feedBytes ht
  | reserved9 | reservedA | reservedB | reservedC | reservedD | reservedE | reservedF => cases ht

/-! ### Every step -/

/-- Everything a step with a next state can be: the block is idle, or it runs the oldest request. -/
theorem step_cases {s t : State} (h : step s = .next t) :
    (s.pending = [] ∧ t = idle s) ∨
    ∃ request rest i, s.pending = request :: rest ∧ decode request = .ok i ∧ exec i { s with pending := rest } = .next t := by
  cases hp : s.pending with
  | nil =>
    rw [stepWithoutOperation.1 s hp] at h
    cases h
    exact .inl ⟨rfl, rfl⟩
  | cons request rest =>
    cases hdec : decode request with
    | ok i => exact .inr ⟨request, rest, i, rfl, hdec, stepRunsOldestRequest s request rest i hp hdec ▸ h⟩
    | error why =>
      rw [stepWithoutOperation.2 s request rest why hp hdec] at h
      cases h

/-- Settles O46: a step is idle or runs one operation, and each keeps the invariants. -/
theorem stepKeepsInvariants : Obligations.StepKeepsInvariants := by
  intro s t h ht
  rcases step_cases ht with ⟨-, rfl⟩ | ⟨request, rest, i, -, -, hexec⟩
  · exact h.of_ports _ _ _
  · exact (h.of_ports rest _ _).exec hexec

end Sys2Proof.Machine
end

section
/-! SUPPORT. Buffer bytes behind the frame in progress are unobservable (`10_state.md` R27): what each update and each operation
makes of two states that agree on the frame. -/

namespace Sys2Proof.Machine

/-! ### Another buffer -/

/-- The state with another buffer. -/
def setBuf (m : Memory) (s : State) : State := { s with rxBuf := m }

/-- Two states that agree on the frame are one state with two buffers. -/
theorem agreeOnFrame_iff {s s' : State} :
    AgreeOnFrame s s' ↔ ∃ m, s' = setBuf m s ∧ ∀ i, i < s.rxCnt → s.rxBuf.read i = m.read i := by
  constructor
  · rintro ⟨hregs, hbuf⟩
    refine ⟨s'.rxBuf, ?_, hbuf⟩
    calc s' = setBuf s'.rxBuf (setBuf [] s') := rfl
      _ = setBuf s'.rxBuf (setBuf [] s) := congrArg (setBuf s'.rxBuf) hregs.symm
      _ = setBuf s'.rxBuf s := rfl
  · rintro ⟨m, rfl, hbuf⟩
    exact ⟨rfl, hbuf⟩

@[simp] theorem storeIndex_setBuf (arm : ByteArm) (m : Memory) (s : State) :
    storeIndex arm (setBuf m s) = storeIndex arm s := by
  cases arm <;> rfl

/-- The body of a frame that is wholly taken does not depend on the bytes behind it. -/
theorem frameBody_setBuf {m : Memory} {s : State} (hm : ∀ i, i < s.rxCnt → s.rxBuf.read i = m.read i)
    (hlen : s.rxLen.toNat + 2 ≤ s.rxCnt) : frameBody (setBuf m s) = frameBody s := by
  refine List.map_congr_left fun i hi => bufByte_congr (hm (i + 2) ?_).symm
  have hi : i < s.rxLen.toNat := List.mem_range.1 hi
  omega

/-! ### The updates -/

/-- An update that does not look at the buffer, keeps it and does not lengthen the frame. -/
theorem AgreeOnFrame.map {s s' : State} (h : AgreeOnFrame s s') (f : State → State)
    (hcomm : ∀ m, f (setBuf m s) = setBuf m (f s)) (hbuf : (f s).rxBuf = s.rxBuf) (hcnt : (f s).rxCnt ≤ s.rxCnt) :
    AgreeOnFrame (f s) (f s') := by
  obtain ⟨m, rfl, hm⟩ := agreeOnFrame_iff.1 h
  exact agreeOnFrame_iff.2 ⟨m, hcomm m, fun i hi => hbuf ▸ hm i (Nat.lt_of_lt_of_le hi hcnt)⟩

theorem AgreeOnFrame.setTimer {s s' : State} (h : AgreeOnFrame s s') (v : Nat) :
    AgreeOnFrame (setTimer v s) (setTimer v s') :=
  h.map (Machine.setTimer v) (fun _ => rfl) rfl le_rfl

theorem AgreeOnFrame.resetParse {s s' : State} (h : AgreeOnFrame s s') : AgreeOnFrame (resetParse s) (resetParse s') :=
  h.map Machine.resetParse (fun _ => rfl) rfl (Nat.zero_le _)

theorem AgreeOnFrame.resetRegisters {s s' : State} (h : AgreeOnFrame s s') :
    AgreeOnFrame (resetRegisters s) (resetRegisters s') :=
  h.map Machine.resetRegisters (fun _ => rfl) rfl (Nat.zero_le _)

theorem AgreeOnFrame.errorState {s s' : State} (h : AgreeOnFrame s s') (k : ErrorKind) :
    AgreeOnFrame (errorState k s) (errorState k s') := by
  cases k with
  | missingSync => exact h
  | badChecksum | packetSizeExceeded | timeoutMidMessage => exact h.resetParse

theorem AgreeOnFrame.setResults {s s' : State} (h : AgreeOnFrame s s') (r : List Result) :
    AgreeOnFrame { s with results := r } { s' with results := r } :=
  h.map (fun u => { u with results := r }) (fun _ => rfl) rfl le_rfl

theorem AgreeOnFrame.results_eq {s s' : State} (h : AgreeOnFrame s s') : s'.results = s.results := by
  obtain ⟨m, rfl, -⟩ := agreeOnFrame_iff.1 h
  rfl

/-- The byte that is taken is stored at `rx_cnt` in both buffers, so the longer frames agree too. -/
theorem AgreeOnFrame.takeByte {s s' : State} (h : AgreeOnFrame s s') (d : Byte) :
    AgreeOnFrame (takeByte d s) (takeByte d s') := by
  obtain ⟨m, rfl, hm⟩ := agreeOnFrame_iff.1 h
  refine ⟨rfl, fun i hi => ?_⟩
  rcases Nat.lt_succ_iff_lt_or_eq.1 hi with hi | rfl
  · rw [takeByte_read_of_lt hi, takeByte_read_of_lt (s := setBuf m s) hi]
    exact hm i hi
  · exact (takeByte_read_rxCnt d s).trans (takeByte_read_rxCnt d (setBuf m s)).symm

/-! ### Outcomes -/

/-- Where the first outcome is a next state, so is the second, and the two states agree on the frame. -/
def AgreeOutcome (o o' : StepResult) : Prop := ∀ t, o = .next t → ∃ t', o' = .next t' ∧ AgreeOnFrame t t'

theorem AgreeOnFrame.reply {s s' : State} (h : AgreeOnFrame s s') (r : Result) :
    AgreeOutcome (reply r s) (reply r s') := by
  intro t ht
  rw [reply_eq_next ht]
  exact ⟨_, reply_eq r s', h.setResults [r]⟩

theorem AgreeOnFrame.raiseError {s s' : State} (h : AgreeOnFrame s s') (k : ErrorKind) :
    AgreeOutcome (raiseError k s) (raiseError k s') :=
  (h.errorState k).reply _

/-- One test, which comes out the same for both. -/
theorem AgreeOutcome.ite {c : Prop} [Decidable c] {o o' p p' : StepResult} (ho : AgreeOutcome o o')
    (hp : AgreeOutcome p p') : AgreeOutcome (if c then o else p) (if c then o' else p') := by
  split_ifs
  · exact ho
  · exact hp

/-! ### `DEC_BYTE` -/

theorem AgreeOnFrame.deliver {s s' : State} (h : AgreeOnFrame s s') (hlen : s.rxLen.toNat + 2 ≤ s.rxCnt) :
    AgreeOutcome (deliver s) (deliver s') := by
  obtain ⟨m, rfl, hm⟩ := agreeOnFrame_iff.1 h
  unfold Machine.deliver
  rw [frameBody_setBuf hm hlen]
  cases frameBody s with
  | nil =>
    have hdraw := h.map (fun u => { u with draws := u.draws + 1 }) (fun _ => rfl) rfl le_rfl
    exact hdraw.resetParse.reply _
  | cons t rest => exact h.resetParse.reply _

/-- The test of R110 reads no buffer byte; a byte that is stored is taken into both frames, and of the other arms only the
delivery reads the buffer, below `rx_cnt`. -/
theorem AgreeOnFrame.execDecByte {s s' : State} (h : AgreeOnFrame s s') (hs : Inv s) (hs' : Inv s') (d : Byte) :
    AgreeOutcome (execDecByte d s) (execDecByte d s') := by
  obtain ⟨m, rfl, -⟩ := agreeOnFrame_iff.1 h
  have harm : byteArm d (setBuf m s) = byteArm d s := rfl
  have hreload := h.setTimer s.cfg.tByte
  cases hi : storeIndex (byteArm d s) s with
  | some i =>
    rw [execDecByte_of_store hs hi, execDecByte_of_store hs' (by rw [harm, storeIndex_setBuf, hi])]
    exact (hreload.takeByte d).reply _
  | none =>
    rw [execDecByte_of_none hi, execDecByte_of_none (by rw [harm, storeIndex_setBuf, hi]), harm]
    have hg := byteArm_guard d s
    cases harm : byteArm d s with rw [harm] at hi hg
    | missingSync | tooLong | badChecksum => exact hreload.raiseError _
    | accept =>
      obtain ⟨-, -, hlen, -⟩ := hg
      exact hreload.deliver hlen
    | beginFrame | takeLength | takeBody => cases hi

theorem AgreeOnFrame.feedBytes {bs : List Byte} {s s' : State} (h : AgreeOnFrame s s') (hs : Inv s) (hs' : Inv s') :
    AgreeOutcome (feedBytes bs s) (feedBytes bs s') := by
  induction bs generalizing s s' with
  | nil =>
    intro t ht
    cases ht
    exact ⟨_, rfl, h.setResults []⟩
  | cons b bs ih =>
    intro t ht
    obtain ⟨s1, s2, h1, h2, rfl⟩ := feedBytes_cons_cases ht
    obtain ⟨s1', h1', hagree1⟩ := h.execDecByte hs hs' b s1 h1
    obtain ⟨s2', h2', hagree2⟩ := ih hagree1 (hs.execDecByte h1) (hs'.execDecByte h1') s2 h2
    refine ⟨_, feedBytes_cons h1' h2', ?_⟩
    rw [hagree1.results_eq, hagree2.results_eq]
    exact hagree2.setResults _

/-! ### Every operation -/

theorem AgreeOnFrame.updateAcc {s s' : State} (h : AgreeOnFrame s s') (k : BitVec 4) (f : Acc → Acc) :
    AgreeOutcome (updateAcc k f s) (updateAcc k f s') := by
  intro t ht
  obtain ⟨m, rfl, -⟩ := agreeOnFrame_iff.1 h
  obtain ⟨a, ha, rfl⟩ := updateAcc_cases ht
  exact ⟨_, updateAcc_of_some (s := setBuf m s) ha f,
    (h.map (setAcc k (f a)) (fun _ => rfl) rfl le_rfl).setResults _⟩

theorem AgreeOnFrame.exec {s s' : State} (h : AgreeOnFrame s s') (hs : Inv s) (hs' : Inv s') (i : Instr) :
    AgreeOutcome (exec i s) (exec i s') := by
  obtain ⟨m, rfl, -⟩ := agreeOnFrame_iff.1 h
  cases i with
  | nop => exact h.reply _
  | reset => exact h.resetRegisters.reply _
  | enc ty p => exact .ite (h.reply _) fun t ht => by cases ht
  | decByte d => exact h.execDecByte hs hs' d
  | decTick =>
    refine .ite (h.reply _) (.ite ((h.setTimer _).reply _) (.ite ?_ ?_))
    · exact (h.setTimer 0).reply _
    · exact (h.setTimer 0).raiseError _
  | decArm => exact (h.setTimer _).reply _
  | decAbort => exact (h.resetParse.setTimer 0).reply _
  | accUpdate k d => exact h.updateAcc k _
  | accLoad k d c => exact h.updateAcc k _
  | frame body cs => exact h.feedBytes hs hs'
  | reserved9 | reservedA | reservedB | reservedC | reservedD | reservedE | reservedF => intro t ht; cases ht

/-- Settles O45: every operation keeps the agreement on the frame, which holds the result port too. -/
theorem staleBytesUnobservable : Obligations.StaleBytesUnobservable := by
  intro i s s' t hs hs' hagree ht
  obtain ⟨t', ht', hagree'⟩ := hagree.exec hs hs' i t ht
  exact ⟨t', ht', hagree'.results_eq, hagree'⟩

end Sys2Proof.Machine
end

section
/-! SUPPORT. The values after power-on and after `RESET` (`10_state.md` R39). -/

namespace Sys2Proof.Machine

theorem inv_resetWith {p : Params} (hp : p.Valid) : Inv (State.resetWith p) where
  params := hp
  awaitSync_iff := by simp [State.resetWith]
  readLength_iff := by simp [State.resetWith]
  readBody_iff := by simp [State.resetWith]
  fits := Nat.zero_le _
  written := by simp [State.resetWith]
  syncFirst := by simp [State.resetWith]
  checksum := rfl
  lengthByte := by simp [State.resetWith]
  noLength := fun _ => rfl
  timerBound := Nat.zero_le _
  timerLive := by simp [State.resetWith]
  bufForm := List.Pairwise.nil
  bufRange := by simp [State.resetWith]
  accCount := List.length_replicate
  accWidth := fun a ha => by
    obtain rfl := List.eq_of_mem_replicate ha
    exact Nat.two_pow_pos _

/-- Settles O47: the power-on state has no frame in progress and total 0 in every pair; the vectors' parameters are in their
ranges. -/
theorem resetHasInvariants : Obligations.ResetHasInvariants :=
  ⟨fun _ hp => ⟨inv_resetWith hp, Memory.read_nil⟩, inv_resetWith (by decide)⟩

/-- Settles O3: both states hold a list of `N_ACC` zero pairs; the invariants hold at power-on, and `RESET` keeps them. -/
theorem resetValues : Obligations.ResetValues := by
  refine ⟨fun p => ⟨rfl, rfl, rfl, rfl, rfl, List.length_replicate, fun k hk => List.getElem?_replicate_of_lt hk,
    inv_resetWith⟩, fun s t ht => ?_⟩
  obtain rfl := reply_eq_next ht
  exact ⟨rfl, rfl, rfl, rfl, rfl, List.length_replicate, fun k hk => List.getElem?_replicate_of_lt hk,
    fun h => h.exec ht⟩

end Sys2Proof.Machine
end

section
/-! SUPPORT. The countdown over a run of ticks (`10_state.md` R26, `41_decoder.md` R123). -/

namespace Sys2Proof.Machine

theorem wait_succ (n : Nat) : wait (n + 1) = .decTick :: wait n := rfl

theorem exec_decTick_of_stopped {s : State} (h : s.rxTimer = 0) : exec .decTick s = .next { s with results := [.pending] } :=
  if_pos h

/-- A countdown with more than one tick left counts down. -/
theorem exec_decTick_of_running {s : State} {v : Nat} (h : s.rxTimer = v + 2) :
    exec .decTick s = .next { s with rxTimer := v + 1, results := [.pending] } := by
  rcases execDecTick_cases s with ⟨h0, -⟩ | ⟨-, hs⟩ | ⟨h1, -⟩ | ⟨h1, -⟩
  · omega
  · rw [h] at hs; exact hs
  · omega
  · omega

/-- A countdown with one tick left lapses, with the result that the fill count selects (R124, R125). -/
theorem exec_decTick_of_last {s : State} (h : s.rxTimer = 1) :
    ∃ t, exec .decTick s = .next t ∧ t.results = [if s.rxCnt = 0 then .noMessage else .error .timeoutMidMessage] ∧
      t.rxTimer = 0 ∧ t.rxCnt = 0 ∧ (t.rxState = .awaitSync ∨ s.rxCnt = 0 ∧ t.rxState = s.rxState) := by
  rcases execDecTick_cases s with ⟨h0, -⟩ | ⟨h2, -⟩ | ⟨-, hcnt, hs⟩ | ⟨-, hcnt, hs⟩
  · omega
  · omega
  · exact ⟨_, hs, by rw [if_pos hcnt], rfl, hcnt, .inr ⟨hcnt, rfl⟩⟩
  · exact ⟨_, hs, by rw [if_neg hcnt], rfl, rfl, .inl rfl⟩

theorem runProgram_wait_of_stopped {s : State} (h : s.rxTimer = 0) (n : Nat) :
    runProgram (wait n) s = .next { s with results := List.replicate n .pending } := by
  induction n with
  | zero => rfl
  | succ n ih =>
    rw [wait_succ, runProgram_cons (exec_decTick_of_stopped h) ((runProgram_results _ _ _).trans ih)]
    rfl

theorem runProgram_wait_lapses (v : Nat) (s : State) (h : s.rxTimer = v + 1) :
    ∃ t, runProgram (wait (v + 1)) s = .next t ∧
      t.results = List.replicate v .pending ++ [if s.rxCnt = 0 then .noMessage else .error .timeoutMidMessage] ∧
      t.rxTimer = 0 ∧ t.rxCnt = 0 ∧ (t.rxState = .awaitSync ∨ s.rxCnt = 0 ∧ t.rxState = s.rxState) := by
  induction v generalizing s with
  | zero =>
    obtain ⟨t, ht, hres, hrest⟩ := exec_decTick_of_last h
    exact ⟨_, runProgram_cons ht (runProgram_nil t), by simpa using hres, hrest⟩
  | succ v ih =>
    obtain ⟨t, ht, hres, hrest⟩ := ih { s with rxTimer := v + 1, results := [.pending] } rfl
    exact ⟨_, runProgram_cons (exec_decTick_of_running h) ht, by simp [hres, List.replicate_succ], hrest⟩

/-- Settles O23: by induction on the ticks left; each tick but the last takes one off the countdown. -/
theorem lapseAtTheLastTick : Obligations.LapseAtTheLastTick :=
  fun s => ⟨fun v h => runProgram_wait_lapses v s h, fun h n => runProgram_wait_of_stopped h n⟩

end Sys2Proof.Machine
end

section
/-! SUPPORT. Which part of the state an accumulator operation reads and writes (`10_state.md` R30), and the results of every
operation (R33). -/

namespace Sys2Proof.Machine

/-! ### What `DEC_BYTE` and a wire frame leave alone and return -/

/-- `DEC_BYTE` returns one of the results of its row of R33. -/
theorem finishByte_mayReturn {arm : ByteArm} {d : Byte} {s t : State} (h : finishByte arm d s = .next t) :
    ∃ r, t.results = [r] ∧ (Instr.decByte d).mayReturn r := by
  cases arm with
  | beginFrame | takeLength | takeBody => cases h; exact ⟨_, rfl, .inl rfl⟩
  | accept =>
    rcases deliver_cases s with ⟨_, _, -, hs⟩ | ⟨-, hs⟩ <;> cases hs.symm.trans h <;>
      exact ⟨_, rfl, .inr (.inl ⟨_, _, _, rfl⟩)⟩
  | missingSync => cases h; exact ⟨_, rfl, .inr (.inr (.inl rfl))⟩
  | badChecksum => cases h; exact ⟨_, rfl, .inr (.inr (.inr (.inl rfl)))⟩
  | tooLong => cases h; exact ⟨_, rfl, .inr (.inr (.inr (.inr rfl)))⟩

theorem execDecByte_mayReturn {d : Byte} {s t : State} (h : execDecByte d s = .next t) :
    ∃ r, t.results = [r] ∧ (Instr.decByte d).mayReturn r := by
  obtain ⟨s1, -, hfinish⟩ := execDecByte_cases h
  exact finishByte_mayReturn hfinish

/-- With valid parameters or not, `DEC_BYTE` leaves the accumulators. -/
theorem execDecByte_acc {d : Byte} {s t : State} (h : execDecByte d s = .next t) : t.acc = s.acc := by
  obtain ⟨s1, hstore, hfinish⟩ := execDecByte_cases h
  obtain ⟨u, -, hu, -, -, hacc, -⟩ := finishByte_frame (byteArm d s) d s1
  cases hu.symm.trans hfinish
  rcases storeTaken_cases hstore with ⟨-, rfl⟩ | ⟨_, -, -, rfl⟩ <;> exact hacc

theorem feedBytes_acc {bs : List Byte} {s t : State} (h : feedBytes bs s = .next t) : t.acc = s.acc := by
  induction bs generalizing s t with
  | nil => cases h; rfl
  | cons b bs ih =>
    obtain ⟨s1, s2, h1, h2, rfl⟩ := feedBytes_cons_cases h
    exact (ih h2).trans (execDecByte_acc h1)

/-- A result for each byte, each of the row of `DEC_BYTE`: that row does not depend on the byte `d`. -/
theorem feedBytes_mayReturn {bs : List Byte} {s t : State} (h : feedBytes bs s = .next t) (d : Byte) :
    t.results.length = bs.length ∧ ∀ r ∈ t.results, (Instr.decByte d).mayReturn r := by
  induction bs generalizing s t with
  | nil => cases h; exact ⟨rfl, by simp⟩
  | cons b bs ih =>
    obtain ⟨s1, s2, h1, h2, rfl⟩ := feedBytes_cons_cases h
    obtain ⟨r, hr, hmay⟩ := execDecByte_mayReturn h1
    obtain ⟨hlen, hall⟩ := ih h2
    simp only [hr, List.singleton_append, List.length_cons, hlen, List.forall_mem_cons, true_and]
    exact ⟨hmay, hall⟩

/-! ### Accumulator operations -/

/-- An operation that names an index `k` replaces the pair of `k` by a function of that pair. -/
theorem exec_of_accIndex {i : Instr} {k : BitVec 4} (h : i.accIndex = some k) :
    ∃ f : Params → Acc → Acc, ∀ s, exec i s = updateAcc k (f s.cfg) s := by
  cases i with
  | accUpdate k' d => cases h; exact ⟨fun p => rolloverUpdate p.accW d, fun _ => rfl⟩
  | accLoad k' d c => cases h; exact ⟨fun p _ => { prev := d, cum := cumOperand p c }, fun _ => rfl⟩
  | _ => cases h

/-- An operation that names no index and is not `RESET` leaves the accumulators. -/
theorem exec_acc_of_not_accIndex {i : Instr} {s t : State} (h : exec i s = .next t) (hreset : i ≠ .reset)
    (hindex : i.accIndex = none) : t.acc = s.acc := by
  cases i with
  | nop | decArm | decAbort => cases h; rfl
  | reset => exact (hreset rfl).elim
  | enc ty p => rw [execEnc_eq_next h]
  | decByte d => exact execDecByte_acc h
  | decTick =>
    rcases execDecTick_cases s with ⟨-, hs⟩ | ⟨-, hs⟩ | ⟨-, -, hs⟩ | ⟨-, -, hs⟩ <;> cases hs.symm.trans h <;> rfl
  | frame body cs => exact feedBytes_acc h
  | accUpdate | accLoad => cases hindex
  | reserved9 | reservedA | reservedB | reservedC | reservedD | reservedE | reservedF => cases h

/-- Settles O41: an operation that names an index `k` is `updateAcc`, which reads and writes the pair of `k` alone. -/
theorem accInstancesIndependent : Obligations.AccInstancesIndependent := by
  refine ⟨fun i k s t hindex ht => ?_, fun i k s s' t hindex hcfg hpair ht => ?_,
    fun i s t ht hreset hindex => exec_acc_of_not_accIndex ht hreset hindex⟩
  · obtain ⟨f, hf⟩ := exec_of_accIndex hindex
    obtain ⟨a, -, rfl⟩ := updateAcc_cases (hf s ▸ ht)
    exact ⟨⟨rfl, rfl, rfl, rfl, rfl, rfl, rfl⟩, rfl, rfl, fun j hj => List.getElem?_set_ne hj.symm⟩
  · obtain ⟨f, hf⟩ := exec_of_accIndex hindex
    obtain ⟨a, ha, rfl⟩ := updateAcc_cases (hf s ▸ ht)
    rw [hf s', hcfg]
    refine ⟨_, updateAcc_of_some (hpair.trans ha) _, ?_, rfl⟩
    simp only [List.getElem?_set_self', hpair]

/-! ### Results -/

/-- An operation of the block, which a wire frame is not, returns one result, of its row of R33. -/
theorem exec_mayReturn {i : Instr} {s t : State} (h : exec i s = .next t) (hframe : ∀ b c, i ≠ .frame b c) :
    ∃ r, t.results = [r] ∧ i.mayReturn r := by
  cases i with
  | nop | reset | decArm | decAbort => cases h; exact ⟨_, rfl, rfl⟩
  | enc ty p => rw [execEnc_eq_next h]; exact ⟨_, rfl, _, rfl⟩
  | decByte d => exact execDecByte_mayReturn h
  | decTick =>
    rcases execDecTick_cases s with ⟨-, hs⟩ | ⟨-, hs⟩ | ⟨-, -, hs⟩ | ⟨-, -, hs⟩ <;> cases hs.symm.trans h
    · exact ⟨_, rfl, .inl rfl⟩
    · exact ⟨_, rfl, .inl rfl⟩
    · exact ⟨_, rfl, .inr (.inl rfl)⟩
    · exact ⟨_, rfl, .inr (.inr rfl)⟩
  | accUpdate | accLoad =>
    obtain ⟨a, -, rfl⟩ := updateAcc_cases h
    exact ⟨_, rfl, _, _, rfl⟩
  | frame body cs => exact (hframe body cs rfl).elim
  | reserved9 | reservedA | reservedB | reservedC | reservedD | reservedE | reservedF => cases h

/-- A wire frame returns one result of `DEC_BYTE` for the sync byte, the length byte, each body byte and the checksum byte. -/
theorem exec_frame_mayReturn {body : List Byte} {cs : Byte} {s t : State} (h : exec (.frame body cs) s = .next t) :
    t.results.length = body.length + 3 ∧ ∀ r ∈ t.results, (Instr.frame body cs).mayReturn r := by
  obtain ⟨hlen, hall⟩ := feedBytes_mayReturn h cs
  exact ⟨hlen.trans (by simp [wireFrame]), hall⟩

/-- Settles O49: a wire frame by its bytes, every other operation by its row. -/
theorem resultsByOperation : Obligations.ResultsByOperation := by
  intro i s t ht
  by_cases hframe : ∃ b c, i = .frame b c
  · obtain ⟨body, cs, rfl⟩ := hframe
    obtain ⟨hlen, hall⟩ := exec_frame_mayReturn ht
    refine ⟨hall, fun h => (h body cs rfl).elim, fun b c heq => ?_⟩
    cases heq
    exact hlen
  · have hne : ∀ b c, i ≠ .frame b c := fun b c heq => hframe ⟨b, c, heq⟩
    obtain ⟨r, hr, hmay⟩ := exec_mayReturn ht hne
    exact ⟨by simpa [hr] using hmay, fun _ => by rw [hr]; rfl, fun b c heq => (hne b c heq).elim⟩

/-- Bit 2 of the code of every error kind is set. -/
theorem ErrorKind.code_bit2 (k : ErrorKind) : k.code.getLsbD 2 = true := by
  cases k <;> decide

/-- Settles O50: the codes are those of the table; the codes 0 to 3 of the other results have bit 2 clear. -/
theorem resultCodes : Obligations.ResultCodes := by
  refine ⟨rfl, fun _ _ _ => rfl, rfl, fun _ => rfl, fun _ _ => rfl, rfl, rfl, rfl, rfl, fun r => ⟨fun h => ?_, ?_⟩⟩
  · cases r with
    | error k => exact ⟨k, rfl⟩
    | pending | decoded | noMessage | encoded | acc => simp [Result.code] at h
  · rintro ⟨k, rfl⟩
    exact k.code_bit2

end Sys2Proof.Machine
end

section
/-! SUPPORT. The parts of the state that an operation touches (`20_memory.md` R50, R62), and that operations on different
parts commute. -/

namespace Sys2Proof.Machine

/-! ### What an operation leaves alone -/

/-- An operation that is neither of the decoder family nor `RESET` writes accumulators and results at most. -/
theorem exec_of_not_isDecoder {i : Instr} {s t : State} (h : exec i s = .next t) (hdec : i.isDecoder = false)
    (hreset : i ≠ .reset) : t = { s with acc := t.acc, results := t.results } := by
  cases i with
  | nop => cases h; rfl
  | enc ty p => rw [execEnc_eq_next h]
  | accUpdate | accLoad => obtain ⟨a, -, rfl⟩ := updateAcc_cases h; rfl
  | reset => exact (hreset rfl).elim
  | decByte | decTick | decArm | decAbort | frame => cases hdec
  | reserved9 | reservedA | reservedB | reservedC | reservedD | reservedE | reservedF => cases h

/-- `DEC_BYTE` leaves the parameters and the queue, and stores its byte at most once, at the index of its arm. -/
theorem execDecByte_effect {d : Byte} {s t : State} (h : execDecByte d s = .next t) :
    t.cfg = s.cfg ∧ t.pending = s.pending ∧
      (storeIndex (byteArm d s) s = none ∧ t.rxBuf = s.rxBuf ∨
        ∃ i, storeIndex (byteArm d s) s = some i ∧ t.rxBuf = s.rxBuf.write i d) := by
  obtain ⟨s1, hstore, hfinish⟩ := execDecByte_cases h
  obtain ⟨u, -, hu, -, hcfg, -, hpending, -, hbuf⟩ := finishByte_frame (byteArm d s) d s1
  cases hu.symm.trans hfinish
  rcases storeTaken_cases hstore with ⟨hn, rfl⟩ | ⟨i, hi, -, rfl⟩
  · exact ⟨hcfg, hpending, .inl ⟨by simpa using hn, hbuf⟩⟩
  · exact ⟨hcfg, hpending, .inr ⟨i, by simpa using hi, hbuf⟩⟩

theorem feedBytes_cfg_pending {bs : List Byte} {s t : State} (h : feedBytes bs s = .next t) :
    t.cfg = s.cfg ∧ t.pending = s.pending := by
  induction bs generalizing s t with
  | nil => cases h; exact ⟨rfl, rfl⟩
  | cons b bs ih =>
    obtain ⟨s1, s2, h1, h2, rfl⟩ := feedBytes_cons_cases h
    obtain ⟨hcfg1, hpending1, -⟩ := execDecByte_effect h1
    obtain ⟨hcfg2, hpending2⟩ := ih h2
    exact ⟨hcfg2.trans hcfg1, hpending2.trans hpending1⟩

theorem execDecTick_frame {s t : State} (h : execDecTick s = .next t) :
    t.cfg = s.cfg ∧ t.pending = s.pending ∧ t.rxBuf = s.rxBuf := by
  rcases execDecTick_cases s with ⟨-, hs⟩ | ⟨-, hs⟩ | ⟨-, -, hs⟩ | ⟨-, -, hs⟩ <;> cases hs.symm.trans h <;>
    exact ⟨rfl, rfl, rfl⟩

/-- No operation writes the parameters or the queue (R34). -/
theorem exec_cfg_pending {i : Instr} {s t : State} (h : exec i s = .next t) : t.cfg = s.cfg ∧ t.pending = s.pending := by
  cases i with
  | reset | decArm | decAbort => cases h; exact ⟨rfl, rfl⟩
  | decByte d =>
    obtain ⟨hcfg, hpending, -⟩ := execDecByte_effect h
    exact ⟨hcfg, hpending⟩
  | decTick =>
    obtain ⟨hcfg, hpending, -⟩ := execDecTick_frame h
    exact ⟨hcfg, hpending⟩
  | frame body cs => exact feedBytes_cfg_pending h
  | nop | enc | accUpdate | accLoad | reserved9 | reservedA | reservedB | reservedC | reservedD | reservedE | reservedF =>
    rw [exec_of_not_isDecoder h rfl nofun]; exact ⟨rfl, rfl⟩

/-- An operation that takes no byte stores none (R50). -/
theorem exec_rxBuf_of_no_byte {i : Instr} {s t : State} (h : exec i s = .next t) (hbyte : ∀ d, i ≠ .decByte d)
    (hframe : ∀ b c, i ≠ .frame b c) : t.rxBuf = s.rxBuf := by
  cases i with
  | reset | decArm | decAbort => cases h; rfl
  | decTick =>
    obtain ⟨-, -, hbuf⟩ := execDecTick_frame h
    exact hbuf
  | decByte d => exact (hbyte d rfl).elim
  | frame body cs => exact (hframe body cs rfl).elim
  | nop | enc | accUpdate | accLoad | reserved9 | reservedA | reservedB | reservedC | reservedD | reservedE | reservedF =>
    rw [exec_of_not_isDecoder h rfl nofun]

/-- The decoder family and the operations that write accumulators have no member in common (R81). -/
theorem accIndex_none_and_ne_reset_of_isDecoder {i : Instr} (h : i.isDecoder = true) : i.accIndex = none ∧ i ≠ .reset := by
  cases i with
  | decByte | decTick | decArm | decAbort | frame => exact ⟨rfl, nofun⟩
  | nop | reset | enc | accUpdate | accLoad => cases h
  | reserved9 | reservedA | reservedB | reservedC | reservedD | reservedE | reservedF => cases h

/-- Settles O42: an operation outside the decoder family writes accumulators and results at most; one of the family names no
accumulator. -/
theorem onlyDecoderTouchesDecoder : Obligations.OnlyDecoderTouchesDecoder := by
  intro i s t h
  refine ⟨fun hdec hreset => ?_, fun hdec => ?_, exec_cfg_pending h⟩
  · rw [exec_of_not_isDecoder h hdec hreset]
    exact ⟨rfl, rfl, rfl, rfl, rfl, rfl, rfl⟩
  · obtain ⟨hindex, hreset⟩ := accIndex_none_and_ne_reset_of_isDecoder hdec
    exact exec_acc_of_not_accIndex h hreset hindex

/-- Settles O43: the buffer after `DEC_BYTE` is the old one, or the old one with one write at the index of the arm. -/
theorem bufferFrame : Obligations.BufferFrame := by
  refine ⟨fun i s t h hbyte hframe a => by rw [exec_rxBuf_of_no_byte h hbyte hframe], fun d s t h => ?_⟩
  obtain ⟨-, -, ⟨hnone, hbuf⟩ | ⟨j, hsome, hbuf⟩⟩ := execDecByte_effect h
  · exact ⟨fun _ a => by rw [hbuf], fun i hi => by cases hnone.symm.trans hi⟩
  · refine ⟨fun hnone => ?_, fun i hi => ?_⟩
    · cases hsome.symm.trans hnone
    cases hsome.symm.trans hi
    rw [hbuf]
    exact ⟨Memory.read_write_same _ _ _, fun a ha => Memory.read_write_of_ne _ _ ha, fun hinv => storeIndex_eq_rxCnt hinv hi⟩

/-! ### A decoder operation does not read the accumulators -/

/-- The state with other accumulators. -/
def setAccs (as : List Acc) (s : State) : State := { s with acc := as }

/-- The outcome with its next state changed. -/
def mapNext (g : State → State) : StepResult → StepResult
  | .next s => .next (g s)
  | .fault r => .fault r
  | .refused r => .refused r

/-- A change of the state that the second half of a sequence carries along passes through the sequence. -/
theorem andThen_mapNext {g : State → State} {f f' : State → StepResult} (hf : ∀ s, f' (g s) = mapNext g (f s))
    (o : StepResult) : andThen (mapNext g o) f' = mapNext g (andThen o f) := by
  cases o with
  | next s => exact hf s
  | fault r => rfl
  | refused r => rfl

theorem storeByte_setAccs (i : Nat) (d : Byte) (as : List Acc) (s : State) :
    storeByte i d (setAccs as s) = mapNext (setAccs as) (storeByte i d s) := by
  simp only [storeByte, apply_ite (mapNext (setAccs as))]
  rfl

theorem storeTaken_setAccs (arm : ByteArm) (d : Byte) (as : List Acc) (s : State) :
    storeTaken arm d (setAccs as s) = mapNext (setAccs as) (storeTaken arm d s) := by
  cases arm with
  | beginFrame | takeLength | takeBody => exact storeByte_setAccs _ d as s
  | missingSync | tooLong | accept | badChecksum => rfl

theorem finishByte_setAccs (arm : ByteArm) (d : Byte) (as : List Acc) (s : State) :
    finishByte arm d (setAccs as s) = mapNext (setAccs as) (finishByte arm d s) := by
  cases arm with
  | accept =>
    have hbody : frameBody (setAccs as s) = frameBody s := rfl
    simp only [finishByte, deliver, hbody]
    cases frameBody s <;> rfl
  | beginFrame | takeLength | takeBody | missingSync | tooLong | badChecksum => rfl

theorem execDecByte_setAccs (d : Byte) (as : List Acc) (s : State) :
    execDecByte d (setAccs as s) = mapNext (setAccs as) (execDecByte d s) := by
  have hstore := storeTaken_setAccs (byteArm d s) d as (setTimer s.cfg.tByte s)
  exact (congrArg (andThen · _) hstore).trans (andThen_mapNext (finishByte_setAccs (byteArm d s) d as) _)

theorem feedBytes_setAccs (bs : List Byte) (as : List Acc) (s : State) :
    feedBytes bs (setAccs as s) = mapNext (setAccs as) (feedBytes bs s) := by
  induction bs generalizing s with
  | nil => rfl
  | cons b bs ih =>
    simp only [feedBytes, execDecByte_setAccs]
    refine andThen_mapNext (fun s1 => ?_) _
    rw [ih]
    exact andThen_mapNext (fun _ => rfl) _

theorem execDecTick_setAccs (as : List Acc) (s : State) :
    execDecTick (setAccs as s) = mapNext (setAccs as) (execDecTick s) := by
  simp only [execDecTick, lapse, apply_ite (mapNext (setAccs as))]
  rfl

/-- With other accumulators a decoder operation does what it did, and leaves them. -/
theorem exec_setAccs_of_isDecoder {i : Instr} (hdec : i.isDecoder = true) (as : List Acc) (s : State) :
    exec i (setAccs as s) = mapNext (setAccs as) (exec i s) := by
  cases i with
  | decByte d => exact execDecByte_setAccs d as s
  | decTick => exact execDecTick_setAccs as s
  | decArm | decAbort => rfl
  | frame body cs => exact feedBytes_setAccs _ as s
  | nop | reset | enc | accUpdate | accLoad => cases hdec
  | reserved9 | reservedA | reservedB | reservedC | reservedD | reservedE | reservedF => cases hdec

/-! ### Operations on different parts commute -/

/-- Where `i` leads from `s` to `s1` and `j` from there to `s2`: the other order runs too, with the same registers at its end
and the same result of each. -/
def RunsSwapped (i j : Instr) (s s1 s2 : State) : Prop :=
  ∃ t1 t2, exec j s = .next t1 ∧ exec i t1 = .next t2 ∧ forgetResults t2 = forgetResults s2 ∧
    t1.results = s2.results ∧ t2.results = s1.results

theorem payloadAllowed_of_execEnc {ty : Byte} {p : List Byte} {s t : State} (h : execEnc ty p s = .next t) :
    payloadAllowed s.cfg p.length := by
  by_contra hn
  cases (execEnc_of_not_allowed hn).symm.trans h

/-- `ENC` reads the parameters alone and writes the result port alone, which no operation reads. -/
theorem runsSwapped_enc {i : Instr} {ty : Byte} {p : List Byte} {s s1 s2 : State} (hi : exec i s = .next s1)
    (hj : exec (.enc ty p) s1 = .next s2) : RunsSwapped i (.enc ty p) s s1 s2 := by
  obtain ⟨hcfg, -⟩ := exec_cfg_pending hi
  have hallowed : payloadAllowed s.cfg p.length := hcfg ▸ payloadAllowed_of_execEnc hj
  obtain rfl := execEnc_eq_next hj
  exact ⟨_, s1, execEnc_of_allowed hallowed, (exec_results i s _).trans hi, rfl, rfl, rfl⟩

/-- The accumulator operation meets the pair that it met, because the decoder operation leaves it; the decoder operation does
not read the pair that has changed. -/
theorem runsSwapped_decoder_acc {i j : Instr} {k : BitVec 4} {s s1 s2 : State} (hdec : i.isDecoder = true)
    (hindex : j.accIndex = some k) (hi : exec i s = .next s1) (hj : exec j s1 = .next s2) : RunsSwapped i j s s1 s2 := by
  obtain ⟨-, hleft, hcfg, -⟩ := onlyDecoderTouchesDecoder i s s1 hi
  have hacc : s1.acc = s.acc := hleft hdec
  obtain ⟨f, hf⟩ := exec_of_accIndex hindex
  have hjs : exec j s = updateAcc k (f s1.cfg) s := hcfg ▸ hf s
  obtain ⟨a, ha, rfl⟩ := updateAcc_cases (hf s1 ▸ hj)
  rw [hacc] at ha ⊢
  have hagain : exec i (setAccs (s.acc.set k.toNat (f s1.cfg a)) s) =
      .next (setAccs (s.acc.set k.toNat (f s1.cfg a)) s1) := by
    rw [exec_setAccs_of_isDecoder hdec, hi]; rfl
  exact ⟨_, _, hjs.trans (updateAcc_of_some ha _), (exec_results i _ _).trans hagain, rfl, rfl, rfl⟩

/-- Each of the two operations meets the pair that it met, and writes to two places of a list commute. -/
theorem runsSwapped_acc_acc {i j : Instr} {k l : BitVec 4} {s s1 s2 : State} (hik : i.accIndex = some k)
    (hjl : j.accIndex = some l) (hkl : k ≠ l) (hi : exec i s = .next s1) (hj : exec j s1 = .next s2) :
    RunsSwapped i j s s1 s2 := by
  have hne : k.toNat ≠ l.toNat := mt BitVec.eq_of_toNat_eq hkl
  obtain ⟨f, hf⟩ := exec_of_accIndex hik
  obtain ⟨g, hg⟩ := exec_of_accIndex hjl
  obtain ⟨a, ha, rfl⟩ := updateAcc_cases (hf s ▸ hi)
  obtain ⟨b, hb, rfl⟩ := updateAcc_cases (hg _ ▸ hj)
  rw [List.getElem?_set_ne hne] at hb
  have ha' : (s.acc.set l.toNat (g s.cfg b))[k.toNat]? = some a := (List.getElem?_set_ne hne.symm).trans ha
  refine ⟨_, _, (hg s).trans (updateAcc_of_some hb _), (hf _).trans (updateAcc_of_some ha' _), ?_, rfl, rfl⟩
  simp only [forgetResults, List.set_comm _ _ hne]

/-- Settles O44: one lemma for each of the three pairs of parts. -/
theorem partsCommute : Obligations.PartsCommute := by
  rintro i j s s1 s2 (⟨hdec, hindex⟩ | ⟨ty, p, rfl⟩ | ⟨k, l, hik, hjl, hkl⟩) hi hj
  · obtain ⟨k, hk⟩ := Option.isSome_iff_exists.1 hindex
    exact runsSwapped_decoder_acc hdec hk hi hj
  · exact runsSwapped_enc hi hj
  · exact runsSwapped_acc_acc hik hjl hkl hi hj

end Sys2Proof.Machine
end

section
/-! SUPPORT. The request layout (`30_encoding.md` R70 to R72; log 3): a request reads back as the operation it was made from,
and what its first byte says of the operation. -/

namespace Sys2Proof.Machine

/-! ### Reading back what was written -/

/-- `decode` goes by its first byte: behind any byte but the sync byte stand the fields of an operation. -/
theorem decode_cons_of_ne_sync {lead : Byte} (h : lead ≠ Config.sync) (operands : List Byte) :
    decode (lead :: operands) = decodeOp lead.toNat operands := if_neg h

theorem decode_cons_sync (operands : List Byte) : decode (Config.sync :: operands) = decodeFrame operands := rfl

/-- A length up to 255 is the value of its length byte. -/
theorem toNat_lengthByte {n : Nat} (h : n ≤ 255) : (BitVec.ofNat 8 n).toNat = n := Nat.mod_eq_of_lt (by omega)

/-- The length byte of a run of at most 255 bytes splits off that run. -/
theorem splitBytes_lengthByte {xs : List Byte} (h : xs.length ≤ 255) (ys : List Byte) :
    splitBytes (BitVec.ofNat 8 xs.length).toNat (xs ++ ys) = some (xs, ys) := by
  rw [toNat_lengthByte h, splitBytes_append]

/-- The instance index fills bits 3:0 of its byte. -/
theorem setWidth_field_index (k : BitVec 4) : (k.setWidth 8).setWidth 4 = k :=
  BitVec.setWidth_setWidth_of_le k (by decide)

theorem decode_encode_enc {p : List Byte} (h : payloadFitsField p) (t : Byte) (extra : List Byte) :
    decode (encode (.enc t p) ++ extra) = .ok (.enc t p) := by
  have hdecode : decode (encode (.enc t p) ++ extra) = decodeEnc (t :: BitVec.ofNat 8 p.length :: (p ++ extra)) := rfl
  simp only [hdecode, decodeEnc, splitBytes_lengthByte h]

theorem decode_encode_accUpdate (k : BitVec 4) (d : Byte) (extra : List Byte) :
    decode (encode (.accUpdate k d) ++ extra) = .ok (.accUpdate k d) := by
  have hdecode : decode (encode (.accUpdate k d) ++ extra) = decodeAccUpdate (k.setWidth 8 :: d :: extra) := rfl
  simp only [hdecode, decodeAccUpdate, setWidth_field_index]

theorem decode_encode_accLoad (k : BitVec 4) (d : Byte) (c : Nat) (extra : List Byte) :
    decode (encode (.accLoad k d c) ++ extra) = .ok (.accLoad k d c) := by
  have hdecode : decode (encode (.accLoad k d c) ++ extra) =
      decodeAccLoad (k.setWidth 8 :: d :: (wideBytes c.log2 c ++ extra)) := rfl
  simp only [hdecode, decodeAccLoad, wideValue_wideBytes _ _ _ (lt_wide_log2 c), setWidth_field_index]

theorem decode_encode_frame {body : List Byte} (h : bodyFitsLength body) (cs : Byte) (extra : List Byte) :
    decode (encode (.frame body cs) ++ extra) = .ok (.frame body cs) := by
  have hdecode : decode (encode (.frame body cs) ++ extra) =
      decodeFrame (BitVec.ofNat 8 body.length :: (body ++ [cs] ++ extra)) := rfl
  simp only [hdecode, decodeFrame, List.append_assoc, splitBytes_lengthByte h, List.singleton_append]

/-- Settles O54: by the operation. A field of fixed width reads back as it stands, a payload or a body by its length byte, and
the total of `ACC_LOAD` by the mark on its last byte; none of them looks at the bytes behind. -/
theorem decodeOfEncode : Obligations.DecodeOfEncode := by
  intro i extra hwf
  cases i with
  | enc t p => exact decode_encode_enc (of_decide_eq_true hwf) t extra
  | accUpdate k d => exact decode_encode_accUpdate k d extra
  | accLoad k d c => exact decode_encode_accLoad k d c extra
  | frame body cs => exact decode_encode_frame (of_decide_eq_true hwf) cs extra
  | nop | reset | decByte | decTick | decArm | decAbort => rfl
  | reserved9 | reservedA | reservedB | reservedC | reservedD | reservedE | reservedF => rfl

/-! ### What the first byte says -/

theorem decodeEnc_eq_ok {bytes : List Byte} {i : Instr} (h : decodeEnc bytes = .ok i) : ∃ t p, i = .enc t p := by
  unfold decodeEnc at h
  split at h
  · split at h <;> cases h
    exact ⟨_, _, rfl⟩
  · cases h

theorem decodeDecByte_eq_ok {bytes : List Byte} {i : Instr} (h : decodeDecByte bytes = .ok i) : ∃ d, i = .decByte d := by
  unfold decodeDecByte at h
  split at h <;> cases h
  exact ⟨_, rfl⟩

theorem decodeAccUpdate_eq_ok {bytes : List Byte} {i : Instr} (h : decodeAccUpdate bytes = .ok i) :
    ∃ k d, i = .accUpdate k d := by
  unfold decodeAccUpdate at h
  split at h <;> cases h
  exact ⟨_, _, rfl⟩

theorem decodeAccLoad_eq_ok {bytes : List Byte} {i : Instr} (h : decodeAccLoad bytes = .ok i) :
    ∃ k d c, i = .accLoad k d c := by
  unfold decodeAccLoad at h
  split at h
  · split at h <;> cases h
    exact ⟨_, _, _, rfl⟩
  · cases h

theorem decodeFrame_eq_ok {bytes : List Byte} {i : Instr} (h : decodeFrame bytes = .ok i) :
    ∃ body cs, i = .frame body cs := by
  unfold decodeFrame at h
  split at h
  · split at h <;> cases h
    exact ⟨_, _, rfl⟩
  · cases h

/-- What `decodeOp` reads has the code it was called with (R70). The named cases are the codes with operand fields, `0x2`, `0x3`,
`0x7` and `0x8`; of the others each reads one operation, and a number above `0xF` none. -/
theorem decodeOp_opCode {op : Nat} {operands : List Byte} {i : Instr} (h : decodeOp op operands = .ok i) :
    ∃ code : BitVec 4, i.opCode = some code ∧ code.toNat = op := by
  unfold decodeOp at h
  split at h
  case h_3 =>
    obtain ⟨t, p, rfl⟩ := decodeEnc_eq_ok h
    exact ⟨_, rfl, rfl⟩
  case h_4 =>
    obtain ⟨d, rfl⟩ := decodeDecByte_eq_ok h
    exact ⟨_, rfl, rfl⟩
  case h_8 =>
    obtain ⟨k, d, rfl⟩ := decodeAccUpdate_eq_ok h
    exact ⟨_, rfl, rfl⟩
  case h_9 =>
    obtain ⟨k, d, c, rfl⟩ := decodeAccLoad_eq_ok h
    exact ⟨_, rfl, rfl⟩
  all_goals cases h
  all_goals exact ⟨_, rfl, rfl⟩

/-- Settles O53: behind the sync byte stands a frame, and behind any other byte what `decodeOp` reads under its number. -/
theorem codeSelectsOperation : Obligations.CodeSelectsOperation := by
  intro lead rest i h
  by_cases hlead : lead = Config.sync
  · subst hlead
    obtain ⟨body, cs, rfl⟩ := decodeFrame_eq_ok ((decode_cons_sync rest).symm.trans h)
    exact .inl ⟨rfl, rfl, body, cs, rfl⟩
  · obtain ⟨code, hcode, hop⟩ := decodeOp_opCode ((decode_cons_of_ne_sync hlead rest).symm.trans h)
    refine .inr ⟨code, hcode, BitVec.eq_of_toNat_eq ?_⟩
    rw [BitVec.toNat_setWidth_of_le (by decide), hop]

/-! ### Words of the operation table -/

/-- Writing more bytes of a number writes the same bytes first. -/
theorem leBytes_add (n m c : Nat) : leBytes (n + m) c = leBytes n c ++ leBytes m (c / 256 ^ n) := by
  induction n generalizing c with
  | zero => simp [leBytes]
  | succ n ih => simp [Nat.succ_add, leBytes, ih, Nat.div_div_eq_div_mul, Nat.pow_succ']

/-- A word decodes to an operation when its bytes are the encoding: the zeros that follow are bytes behind the fields (R71). -/
theorem decodeTableWord_of_leBytes {nbits w : Nat} {i : Instr} (hwf : i.WellFormed)
    (h : leBytes ((nbits + 7) / 8) (w % 2 ^ nbits) = encode i) : decodeTableWord nbits w = some i := by
  simp only [decodeTableWord, wordRequest, leBytes_add, h, decodeOfEncode i _ hwf]

/-- Settles O55: the bytes of each word, lowest first, are the encoding of its operation. -/
theorem tableWordsDecode : Obligations.TableWordsDecode := by
  unfold Obligations.TableWordsDecode
  and_intros <;> exact decodeTableWord_of_leBytes rfl (by decide)

end Sys2Proof.Machine
end

section
/-! SUPPORT. The wire frame (`30_encoding.md` R72 to R75) as what `ENC` makes, and as what `FEED` brings to the decoder (R83);
the field `c` of `ACC_LOAD` (R70; log 15). -/

namespace Sys2Proof.Machine

/-! ### Well-formed frames -/

/-- The bytes of a frame by offset: sync, length, type, payload, checksum. -/
theorem encodeFrame_eq_cons (t : Byte) (p : List Byte) :
    encodeFrame t p = Config.sync :: BitVec.ofNat 8 (p.length + 1) :: t :: (p ++ [frameChecksum (t :: p)]) :=
  encodeFrame_eq t p

@[simp] theorem length_encodeFrame (t : Byte) (p : List Byte) : (encodeFrame t p).length = p.length + 4 := by
  simp [encodeFrame_eq_cons]

/-- R75 by offset: sync, a length byte that counts the type and the payload, and the checksum last. -/
theorem isFrame_iff (sync l t cs : Byte) (p : List Byte) :
    IsFrame (sync :: l :: t :: (p ++ [cs])) ↔
      sync = Config.sync ∧ l.toNat = p.length + 1 ∧ cs = xorAll (sync :: l :: t :: p) := by
  have hcount : 1 ≤ l.toNat ∧ p.length + 1 = l.toNat ↔ l.toNat = p.length + 1 := by omega
  simp [IsFrame, hcount]

theorem isFrame_encodeFrame {p : List Byte} (h : p.length ≤ 254) (t : Byte) : IsFrame (encodeFrame t p) := by
  rw [encodeFrame_eq_cons, isFrame_iff]
  exact ⟨rfl, toNat_lengthByte (by omega), rfl⟩

/-- A well-formed frame is the frame of the type at offset 2 and of the bytes between it and the last one. -/
theorem exists_encodeFrame_eq_of_isFrame {f : List Byte} (h : IsFrame f) : ∃ t p, encodeFrame t p = f := by
  match f with
  | sync :: l :: t :: b :: rest =>
    obtain ⟨p, cs, hp⟩ : ∃ p cs, b :: rest = p ++ [cs] :=
      ⟨_, _, (List.dropLast_concat_getLast (List.cons_ne_nil b rest)).symm⟩
    rw [hp] at h ⊢
    obtain ⟨rfl, hl, rfl⟩ := (isFrame_iff _ _ _ _ _).1 h
    obtain rfl : l = BitVec.ofNat 8 (p.length + 1) := by rw [← hl, BitVec.ofNat_toNat, BitVec.setWidth_eq]
    exact ⟨t, p, encodeFrame_eq_cons t p⟩
  | [] | [_] | [_, _] | [_, _, _] => exact absurd h.1 (by simp)

/-- Settles O8: `MAX_PAYLOAD` is at most 254, so that the length byte holds the payload's length and the type. -/
theorem encMakesExactlyTheFrames : Obligations.EncMakesExactlyTheFrames := by
  refine ⟨fun c f => ⟨?_, fun ⟨hframe, hmax⟩ => ?_⟩, ?_⟩
  · rintro ⟨t, p, hp, rfl⟩
    exact ⟨isFrame_encodeFrame (hp.trans (min_le_left _ _)) t, by simpa using hp⟩
  · obtain ⟨t, p, rfl⟩ := exists_encodeFrame_eq_of_isFrame hframe
    exact ⟨t, p, by simpa using hmax, rfl⟩
  · rintro t p f rfl
    exact ⟨rfl, by simp [encodeFrame_eq_cons]⟩

/-! ### Feeding -/

/-- Feeding bytes is running their `DEC_BYTE` operations (R83). -/
theorem feedBytes_eq_runProgram_feed (bytes : List Byte) (s : State) : feedBytes bytes s = runProgram (feed bytes) s := by
  induction bytes generalizing s with
  | nil => rfl
  | cons b bytes ih =>
    have hrest : feedBytes bytes = runProgram (feed bytes) := funext ih
    simp only [feedBytes, hrest]
    rfl

/-- Settles O29: a wire frame feeds its bytes. -/
theorem frameIsFeed : Obligations.FrameIsFeed := fun body cs s => feedBytes_eq_runProgram_feed (wireFrame body cs) s

/-! ### The total of `ACC_LOAD` -/

@[simp] theorem cumOperand_mod (p : Params) (c : Nat) : cumOperand p (c % 2 ^ p.accW) = cumOperand p c := Nat.mod_mod _ _

/-- Settles O34: `ACC_LOAD` reads its number through `cumOperand`, which takes the residue. -/
theorem accLoadTakesFieldBits : Obligations.AccLoadTakesFieldBits := by
  intro k d c s
  refine ⟨?_, fun hk => ⟨_, updateAcc_of_some (List.getElem?_eq_getElem hk) _, rfl⟩⟩
  simp only [exec, execAccLoad, cumOperand_mod]

end Sys2Proof.Machine
end

section
/-! SUPPORT. The encoder (`40_encoder.md` R100 to R105), and its frames at the decoder, with silence shorter than the inter-byte
interval between their bytes (R106). -/

namespace Sys2Proof.Machine

/-! ### What `ENC` answers -/

/-- Settles O5: the payload is allowed, and `encodeFrame` is the frame written out. -/
theorem encReturnsWireFrame : Obligations.EncReturnsWireFrame :=
  fun _ _ => ⟨rfl, fun _ hp => execEnc_of_allowed hp⟩

/-- Settles O6: the payload is not allowed. -/
theorem encRefusesLongPayload : Obligations.EncRefusesLongPayload :=
  fun _ _ _ hp => execEnc_of_not_allowed (not_le.2 hp)

/-- Settles O7: the length byte is read at offset 1; the type and the payload are read back from offset 2 on (R75), so that equal
frames have equal ones. -/
theorem encLengthAndInjective : Obligations.EncLengthAndInjective := by
  refine ⟨fun t p hp => ⟨length_encodeFrame t p, _, rfl, toNat_lengthByte (by omega)⟩, fun t t' p p' heq => ?_⟩
  obtain ⟨htype, hpayload⟩ := encMakesExactlyTheFrames.2 t p _ rfl
  obtain ⟨htype', hpayload'⟩ := encMakesExactlyTheFrames.2 t' p' _ heq.symm
  exact ⟨Option.some.inj (htype.symm.trans htype'), hpayload.symm.trans hpayload'⟩

/-- The last byte of an encoded frame is the exclusive-or of the bytes before it. -/
theorem front_last_of_encodeFrame {t last : Byte} {p front : List Byte} (h : encodeFrame t p = front ++ [last]) :
    front = Config.sync :: BitVec.ofNat 8 (p.length + 1) :: t :: p ∧ last = xorAll front := by
  obtain ⟨rfl, hlast⟩ := List.append_inj' h rfl
  exact ⟨rfl, (List.singleton_inj.1 hlast).symm⟩

/-! ### A frame in progress -/

/-- `rx_state` after the first `n` bytes of a frame (R22). -/
def frontState : Nat → RxState
  | 0 => .awaitSync
  | 1 => .readLength
  | _ + 2 => .readBody

/-- The decoder has taken the bytes `front` of a frame. With none taken it only awaits the sync byte, which overwrites the
registers of the frame before. -/
structure FrontTaken (front : List Byte) (s : State) : Prop where
  position : s.rxState = frontState front.length
  bytes : front ≠ [] → takenBytes s = front
  checksum : front ≠ [] → s.rxXor = xorAll front
  lengthByte : ∀ l, front[1]? = some l → s.rxLen = l

/-- These bytes can be the first ones of a frame that fits the buffer, its checksum byte left out. -/
structure FrameFront (c : Params) (front : List Byte) : Prop where
  sync : ∀ b, front[0]? = some b → b = Config.sync
  fits : front.length ≤ c.cap
  inLength : ∀ l, front[1]? = some l → front.length ≤ l.toNat + 2

theorem FrameFront.of_append {c : Params} {xs ys : List Byte} (h : FrameFront c (xs ++ ys)) : FrameFront c xs := by
  have hlen : xs.length ≤ (xs ++ ys).length := by simp
  have hget {i : Nat} {b : Byte} (hb : xs[i]? = some b) : (xs ++ ys)[i]? = some b :=
    (List.getElem?_append_left (List.getElem?_eq_some_iff.1 hb).1).trans hb
  exact ⟨fun b hb => h.sync b (hget hb), hlen.trans h.fits, fun l hl => hlen.trans (h.inLength l (hget hl))⟩

@[simp] theorem length_takenBytes (s : State) : (takenBytes s).length = s.rxCnt := by simp [takenBytes]

theorem FrontTaken.rxCnt_eq {front : List Byte} {s : State} (h : FrontTaken front s) (hne : front ≠ []) :
    s.rxCnt = front.length := by
  rw [← length_takenBytes, h.bytes hne]

/-- The countdown and the result port are no part of the frame. -/
theorem FrontTaken.of_ports {front : List Byte} {s : State} (h : FrontTaken front s) (v : Nat) (r : List Result) :
    FrontTaken front { s with rxTimer := v, results := r } := { h with }

/-- Taking a byte of a frame that has begun. -/
theorem FrontTaken.takeByte {front : List Byte} {s : State} (h : FrontTaken front s) (hne : front ≠ []) (d : Byte) :
    FrontTaken (front ++ [d]) (takeByte d s) where
  position := by
    rcases front with _ | ⟨b, _ | ⟨l, body⟩⟩
    · exact absurd rfl hne
    · simp [Machine.takeByte, h.rxCnt_eq hne, frontState]
    · simp [Machine.takeByte, h.rxCnt_eq hne, frontState]
  bytes _ := by rw [takenBytes_takeByte, h.bytes hne]
  checksum _ := by simp [Machine.takeByte, h.checksum hne]
  lengthByte l hl := by
    rcases front with _ | ⟨b, _ | ⟨l', body⟩⟩
    · exact absurd rfl hne
    · simpa [Machine.takeByte, h.rxCnt_eq hne] using hl
    · simpa [Machine.takeByte, h.rxCnt_eq hne, h.lengthByte l' rfl] using hl

/-! ### The bytes of a frame -/

/-- The sync byte begins a frame as from a reset parse state, but for `rx_len`, which it leaves (R113). -/
theorem execDecByte_sync {s : State} (hp : s.cfg.Valid) (hst : s.rxState = .awaitSync) :
    execDecByte Config.sync s =
      reply .pending { takeByte Config.sync (setTimer s.cfg.tByte (resetParse s)) with rxLen := s.rxLen } := by
  have harm : byteArm Config.sync s = .beginFrame := by simp [byteArm, hst]
  have hcap : 0 < s.cfg.cap := Nat.lt_of_lt_of_le (by decide) hp.1
  rw [execDecByte_of_some (i := 0) (by rw [harm]; rfl) hcap, harm]
  simp [finishByte, takeByte]

/-- A later byte of the frame is taken, be it the length byte (R114) or a body byte (R116). -/
theorem FrontTaken.execDecByte_of_ne_nil {front : List Byte} {s : State} (h : FrontTaken front s) (hne : front ≠ [])
    {d : Byte} (hd : FrameFront s.cfg (front ++ [d])) :
    execDecByte d s = reply .pending (Machine.takeByte d (setTimer s.cfg.tByte s)) := by
  have hcnt : s.rxCnt = front.length := h.rxCnt_eq hne
  have hfits : front.length < s.cfg.cap := by simpa using hd.fits
  have hst := h.position
  rcases front with _ | ⟨b, _ | ⟨l, body⟩⟩
  · exact absurd rfl hne
  · have harm : byteArm d s = .takeLength := by simp [byteArm, hst, frontState]
    rw [execDecByte_of_some (i := 1) (by rw [harm]; rfl) hfits, harm]
    simp [finishByte, Machine.takeByte, hcnt]
  · have hlen : s.rxCnt < s.rxLen.toNat + 2 := by
      rw [hcnt, h.lengthByte l rfl]
      simpa using hd.inLength l rfl
    have hcap : ¬ s.rxCnt + 1 > s.cfg.cap := by omega
    have harm : byteArm d s = .takeBody := by simp [byteArm, hst, frontState, hcap, hlen]
    rw [execDecByte_of_some (i := s.rxCnt) (by rw [harm]; rfl) (hcnt ▸ hfits), harm]
    simp [finishByte, Machine.takeByte, hcnt, hst, frontState]

/-- Each byte of a frame before its checksum byte is taken with `PENDING`. -/
theorem FrontTaken.execDecByte {front : List Byte} {s : State} (h : FrontTaken front s) (hp : s.cfg.Valid) {d : Byte}
    (hd : FrameFront s.cfg (front ++ [d])) :
    ∃ t, execDecByte d s = .next t ∧ FrontTaken (front ++ [d]) t ∧ t.cfg = s.cfg ∧ t.rxTimer = s.cfg.tByte ∧
      t.results = [.pending] := by
  rcases eq_or_ne front [] with rfl | hne
  · obtain rfl : d = Config.sync := hd.sync d rfl
    have hbytes := takenBytes_takeByte Config.sync (setTimer s.cfg.tByte (resetParse s))
    exact ⟨_, execDecByte_sync hp h.position, ⟨rfl, fun _ => hbytes, by simp [Machine.takeByte], by simp⟩, rfl, rfl, rfl⟩
  · exact ⟨_, h.execDecByte_of_ne_nil hne hd, ((h.of_ports _ _).takeByte hne d).of_ports _ _, rfl, rfl, rfl⟩

/-- The body of a frame whose `L` body bytes are taken is read from the buffer. -/
theorem FrontTaken.frameBody {sync l : Byte} {body : List Byte} {s : State} (h : FrontTaken (sync :: l :: body) s)
    (hlen : body.length = l.toNat) : frameBody s = body := by
  have hl : s.rxLen = l := h.lengthByte l rfl
  have hcnt : s.rxCnt = s.rxLen.toNat + 2 := by rw [h.rxCnt_eq (by simp), hl, ← hlen]; rfl
  have hbytes := h.bytes (by simp)
  rw [takenBytes, hcnt, List.range_succ_eq_map, List.range_succ_eq_map] at hbytes
  simpa [Machine.frameBody, Function.comp_def] using congrArg (List.drop 2) hbytes

/-- The checksum byte of a complete frame delivers it (R117, R120). -/
theorem FrontTaken.execDecByte_checksum {sync l : Byte} {body : List Byte} {s : State}
    (h : FrontTaken (sync :: l :: body) s) (hlen : body.length = l.toNat) (hfits : body.length + 3 ≤ s.cfg.cap) :
    ∃ t, Machine.execDecByte (xorAll (sync :: l :: body)) s = .next t ∧
      t.results = [.decoded l body (outType body s.draws)] ∧ t.rxState = .awaitSync ∧ t.rxCnt = 0 := by
  have hne : sync :: l :: body ≠ [] := by simp
  have hl : s.rxLen = l := h.lengthByte l rfl
  have hcnt : s.rxCnt = body.length + 2 := h.rxCnt_eq hne
  have harm : byteArm (xorAll (sync :: l :: body)) s = .accept := by
    have hcap : ¬ s.rxCnt + 1 > s.cfg.cap := by omega
    have hend : ¬ s.rxCnt < s.rxLen.toNat + 2 := by rw [hl]; omega
    rw [← h.checksum hne]
    simp [byteArm, h.position, frontState, hcap, hend]
  have hbody : Machine.frameBody (setTimer s.cfg.tByte s) = body := h.frameBody hlen
  rw [execDecByte_of_none (by rw [harm]; rfl), harm, ← hl]
  rcases deliver_cases (setTimer s.cfg.tByte s) with ⟨t, rest, hcons, hs⟩ | ⟨hnil, hs⟩
  · obtain rfl := hbody.symm.trans hcons
    exact ⟨_, hs, rfl, rfl, rfl⟩
  · obtain rfl := hbody.symm.trans hnil
    exact ⟨_, hs, rfl, rfl, rfl⟩

/-! ### Bytes with silence between them -/

/-- Fewer ticks than the countdown holds only count down (R123). -/
theorem runProgram_wait_of_lt {s : State} {g : Nat} (h : g < s.rxTimer) :
    runProgram (wait g) s = .next { s with rxTimer := s.rxTimer - g, results := List.replicate g .pending } := by
  induction g generalizing s with
  | zero => rfl
  | succ g ih =>
    obtain ⟨v, hv⟩ : ∃ v, s.rxTimer = v + 2 := ⟨s.rxTimer - 2, by omega⟩
    have hrest := ih (s := { s with rxTimer := v + 1, results := [.pending] }) (by simp only; omega)
    have htimer : s.rxTimer - (g + 1) = v + 1 - g := by omega
    rw [wait_succ, runProgram_cons (exec_decTick_of_running hv) hrest, htimer]
    rfl

/-- A byte of a frame and silence that does not reach the inter-byte interval. -/
theorem FrontTaken.runProgram_byte_wait {front : List Byte} {s : State} (h : FrontTaken front s) (hp : s.cfg.Valid)
    {d : Byte} (hd : FrameFront s.cfg (front ++ [d])) {g : Nat} (hg : g < s.cfg.tByte) :
    ∃ t, runProgram (.decByte d :: wait g) s = .next t ∧ FrontTaken (front ++ [d]) t ∧ t.cfg = s.cfg ∧
      t.results = List.replicate (g + 1) .pending := by
  obtain ⟨t, ht, htaken, hcfg, htimer, hres⟩ := h.execDecByte hp hd
  refine ⟨_, runProgram_cons ht (runProgram_wait_of_lt (htimer ▸ hg)), htaken.of_ports _ _, hcfg, ?_⟩
  simp [hres, List.replicate_succ]

/-- One program and then another, where both complete. -/
theorem runProgram_append_of_next {xs ys : List Instr} {s s1 s2 : State} (h1 : runProgram xs s = .next s1)
    (h2 : runProgram ys s1 = .next s2) :
    runProgram (xs ++ ys) s = .next { s2 with results := s1.results ++ s2.results } := by
  simp [runProgram_append, h1, h2]

/-- The front of a frame is taken whole, whatever silence shorter than the inter-byte interval stands between its bytes. -/
theorem FrontTaken.runProgram_feedSpaced {gaps : List (Byte × Nat)} {front : List Byte} {s : State}
    (h : FrontTaken front s) (hp : s.cfg.Valid) (hfront : FrameFront s.cfg (front ++ gaps.map Prod.fst))
    (hgaps : ∀ g ∈ gaps, g.2 < s.cfg.tByte) :
    ∃ t, runProgram (feedSpaced gaps) s = .next t ∧ FrontTaken (front ++ gaps.map Prod.fst) t ∧ t.cfg = s.cfg ∧
      t.results = List.replicate (gaps.length + (gaps.map Prod.snd).sum) .pending := by
  induction gaps generalizing front s with
  | nil => exact ⟨_, rfl, by simpa using h.of_ports s.rxTimer [], rfl, rfl⟩
  | cons g gaps ih =>
    obtain ⟨d, j⟩ := g
    obtain ⟨hj, hgaps⟩ := List.forall_mem_cons.1 hgaps
    rw [List.map_cons, List.append_cons] at hfront ⊢
    obtain ⟨s1, h1, htaken1, hcfg1, hres1⟩ := h.runProgram_byte_wait hp hfront.of_append hj
    obtain ⟨s2, h2, htaken2, hcfg2, hres2⟩ := ih htaken1 (hcfg1 ▸ hp) (hcfg1 ▸ hfront) (hcfg1 ▸ hgaps)
    refine ⟨_, runProgram_append_of_next h1 h2, htaken2.of_ports s2.rxTimer _, hcfg2.trans hcfg1, ?_⟩
    simp only [hres1, hres2, List.replicate_append_replicate, List.length_cons, List.map_cons, List.sum_cons]
    congr 1
    omega

/-- From `AWAIT_SYNC` a frame that fits is delivered at its checksum byte, with `PENDING` before it, whatever silence shorter
than the inter-byte interval stands behind its other bytes (R106, R121). -/
theorem runProgram_feedSpaced_frame {s : State} {l : Byte} {body front : List Byte} {gaps : List Nat} (hp : s.cfg.Valid)
    (hst : s.rxState = .awaitSync) (hlen : body.length = l.toNat) (hfits : body.length + 3 ≤ s.cfg.cap)
    (hfront : front = Config.sync :: l :: body) (hcount : gaps.length = front.length) (hgaps : ∀ g ∈ gaps, g < s.cfg.tByte) :
    ∃ t draw, runProgram (feedSpaced (front.zip gaps) ++ [.decByte (xorAll front)]) s = .next t ∧
      t.results = List.replicate (front.length + gaps.sum) .pending ++ [.decoded l body (outType body draw)] ∧
      t.rxState = .awaitSync ∧ t.rxCnt = 0 := by
  have hidle : FrontTaken [] s := ⟨hst, by simp, by simp, by simp⟩
  have hbytes : (front.zip gaps).map Prod.fst = front := List.map_fst_zip hcount.ge
  have hsilence : (front.zip gaps).map Prod.snd = gaps := List.map_snd_zip hcount.le
  have hframe : FrameFront s.cfg front := by
    subst hfront
    refine ⟨by simp, ?_, by simp [hlen]⟩
    simp only [List.length_cons]
    omega
  obtain ⟨s1, h1, htaken, hcfg, hres1⟩ := hidle.runProgram_feedSpaced hp (by rwa [hbytes])
    (fun g hg => hgaps g.2 (List.of_mem_zip hg).2)
  rw [hbytes, List.nil_append, hfront] at htaken
  obtain ⟨t, ht, hres, hstate, hcnt⟩ := htaken.execDecByte_checksum hlen (hcfg ▸ hfits)
  rw [← hfront] at ht
  refine ⟨_, s1.draws, runProgram_append_of_next h1 (runProgram_cons ht (runProgram_nil t)), ?_, hstate, hcnt⟩
  simp [hres1, hres, hsilence, hcount]

/-- Settles O25: the bytes before the last are taken one by one, by induction on them; the last is their exclusive-or, which
delivers the body, the type and the payload. -/
theorem roundTripWithoutLapse : Obligations.RoundTripWithoutLapse := by
  intro s ty p gaps last front hp hst hallowed hframe hcount hgaps
  obtain ⟨hfront, rfl⟩ := front_last_of_encodeFrame hframe
  obtain ⟨hmax, hcap⟩ : p.length ≤ 254 ∧ p.length ≤ s.cfg.cap - 4 := le_min_iff.1 hallowed
  have hcap4 : 4 ≤ s.cfg.cap := hp.1
  have hlen : (ty :: p).length = (BitVec.ofNat 8 (p.length + 1)).toNat :=
    (toNat_lengthByte (n := p.length + 1) (by omega)).symm
  have hfits : (ty :: p).length + 3 ≤ s.cfg.cap := by simp only [List.length_cons]; omega
  obtain ⟨t, draw, hrun⟩ := runProgram_feedSpaced_frame hp hst hlen hfits hfront hcount hgaps
  exact ⟨t, hrun⟩

end Sys2Proof.Machine
end

section
/-! SUPPORT. `DEC_BYTE` row by row (`41_decoder.md` R110 to R120): the test of a row selects its arm, and the arm's store, register
writes and result are the row's. -/

namespace Sys2Proof.Machine

/-! ### From the test of a row to its effect -/

/-- The tests of R110 exclude one another: the arm whose test holds is taken. -/
theorem byteArm_of_guard {arm : ByteArm} {d : Byte} {s : State} (h : arm.Guard d s) : byteArm d s = arm := by
  cases arm with
  | missingSync => obtain ⟨hst, hd⟩ := h; simp [byteArm, hst, hd]
  | beginFrame => obtain ⟨hst, hd⟩ := h; simp [byteArm, hst, hd]
  | takeLength => simp [byteArm, show s.rxState = .readLength from h]
  | tooLong => obtain ⟨hst, hcap⟩ := h; simp [byteArm, hst, hcap]
  | takeBody =>
    obtain ⟨hst, hcap, hbody⟩ := h
    simp [byteArm, hst, hcap.not_gt, hbody]
  | accept =>
    obtain ⟨hst, hcap, hend, hd⟩ := h
    simp [byteArm, hst, hcap.not_gt, hend.not_gt, hd]
  | badChecksum =>
    obtain ⟨hst, hcap, hend, hd⟩ := h
    simp [byteArm, hst, hcap.not_gt, hend.not_gt, hd]

/-- A row that stores nothing. -/
theorem execDecByte_of_guard {arm : ByteArm} {d : Byte} {s : State} (h : arm.Guard d s) (hn : storeIndex arm s = none) :
    execDecByte d s = finishByte arm d (setTimer s.cfg.tByte s) := by
  obtain rfl := byteArm_of_guard h
  exact execDecByte_of_none hn

/-- A row that stores its byte, at an index the buffer has. -/
theorem execDecByte_of_guard_store {arm : ByteArm} {d : Byte} {s : State} {i : Nat} (h : arm.Guard d s)
    (hs : storeIndex arm s = some i) (hi : i < s.cfg.cap) :
    execDecByte d s = finishByte arm d { setTimer s.cfg.tByte s with rxBuf := s.rxBuf.write i d } := by
  obtain rfl := byteArm_of_guard h
  exact execDecByte_of_some hs hi

/-! ### The rows before the checksum byte -/

/-- Settles O9: the row stores nothing, and `MissingSync` writes no register (R161). -/
theorem decByteMissingSync : Obligations.DecByteMissingSync :=
  fun _ _ hst hd => execDecByte_of_guard (arm := .missingSync) ⟨hst, hd⟩ rfl

/-- Settles O10: the row stores at index 0, which every buffer has. -/
theorem decByteBeginsFrame : Obligations.DecByteBeginsFrame := by
  intro s hp hst
  obtain ⟨hcap, -⟩ := hp
  exact execDecByte_of_guard_store (arm := .beginFrame) ⟨hst, rfl⟩ rfl (by omega)

/-- Settles O11: the row stores at index 1, which every buffer has. -/
theorem decByteTakesLength : Obligations.DecByteTakesLength := by
  intro d s hp hst
  obtain ⟨hcap, -⟩ := hp
  exact execDecByte_of_guard_store (arm := .takeLength) hst rfl (by omega)

/-- Settles O13: the row stores at `rx_cnt`, which the capacity test keeps inside the buffer. -/
theorem decByteTakesBody : Obligations.DecByteTakesBody :=
  fun _ _ hst hcap hbody => execDecByte_of_guard_store (arm := .takeBody) ⟨hst, hcap, hbody⟩ rfl hcap

/-- A byte that does not fit drops the frame (R115). -/
theorem execDecByte_tooLong {d : Byte} {s : State} (hst : s.rxState = .readBody) (hcap : s.cfg.cap < s.rxCnt + 1) :
    execDecByte d s = raiseError .packetSizeExceeded (setTimer s.cfg.tByte s) :=
  execDecByte_of_guard (arm := .tooLong) ⟨hst, hcap⟩ rfl

/-! ### The checksum byte -/

/-- Settles O16: the row stores nothing, and `BadChecksum` resets the parse state (R161). -/
theorem decByteBadChecksum : Obligations.DecByteBadChecksum :=
  fun _ _ hst hcap hend hd => execDecByte_of_guard (arm := .badChecksum) ⟨hst, hcap, hend.ge, hd⟩ rfl

theorem frameBody_eq_nil_iff (s : State) : frameBody s = [] ↔ s.rxLen.toNat = 0 := by
  simp [frameBody]

/-- Of a body with a byte the view `out_type` is the byte at index 2 (R33). -/
theorem outType_frameBody {s : State} (h : 1 ≤ s.rxLen.toNat) (draw : Nat) : outType (frameBody s) draw = bufByte s 2 := by
  obtain ⟨n, hn⟩ : ∃ n, s.rxLen.toNat = n + 1 := ⟨s.rxLen.toNat - 1, by omega⟩
  simp [outType, frameBody, hn, List.range_succ_eq_map]

/-- The counter of draws after the delivery of a body: it goes on at an empty one (log 8). -/
def drawsAfter (body : List Byte) (draws : Nat) : Nat := if body = [] then draws + 1 else draws

/-- Both deliveries of R117 and R120 as one. -/
theorem deliver_eq (s : State) :
    deliver s = reply (.decoded s.rxLen (frameBody s) (outType (frameBody s) s.draws))
      (resetParse { s with draws := drawsAfter (frameBody s) s.draws }) := by
  rcases deliver_cases s with ⟨t, rest, hbody, hs⟩ | ⟨hbody, hs⟩
  · simp [hs, hbody, outType, drawsAfter]
  · simp [hs, hbody, outType, drawsAfter]

/-- The matching checksum byte delivers the frame (R117, R120). -/
theorem execDecByte_accept {s : State} (hst : s.rxState = .readBody) (hcap : s.rxCnt + 1 ≤ s.cfg.cap)
    (hend : s.rxLen.toNat + 2 ≤ s.rxCnt) :
    execDecByte s.rxXor s = reply (.decoded s.rxLen (frameBody s) (outType (frameBody s) s.draws))
      (resetParse { setTimer s.cfg.tByte s with draws := drawsAfter (frameBody s) s.draws }) :=
  (execDecByte_of_guard (arm := .accept) ⟨hst, hcap, hend, rfl⟩ rfl).trans (deliver_eq _)

/-- Settles O14: the row delivers the frame; a body with a byte has the view `out_type` and draws no free value. -/
theorem decByteAcceptsFrame : Obligations.DecByteAcceptsFrame := by
  intro s hst hcap hend
  refine ⟨_, _, execDecByte_accept hst hcap hend.ge, fun hlen => ⟨outType_frameBody hlen _, if_neg fun hnil => ?_⟩⟩
  have := (frameBody_eq_nil_iff s).1 hnil
  omega

/-- Settles O15: with `rx_len = 0` the row delivers the empty body, whose `out_type` is the free value of this draw. -/
theorem decByteAcceptsEmptyFrame : Obligations.DecByteAcceptsEmptyFrame := by
  intro s hst hcap hend hlen
  have hbody : frameBody s = [] := (frameBody_eq_nil_iff s).2 hlen
  have hzero : s.rxLen = 0x00#8 := BitVec.eq_of_toNat_eq hlen
  have hrun := execDecByte_accept hst hcap hend.ge
  rw [hbody, hzero] at hrun
  exact ⟨hrun, rfl⟩

/-! ### The result selects the row -/

/-- The result of each row. -/
def ByteArm.result (s : State) : ByteArm → Result
  | .beginFrame | .takeLength | .takeBody => .pending
  | .accept => .decoded s.rxLen (frameBody s) (outType (frameBody s) s.draws)
  | .missingSync => .error .missingSync
  | .tooLong => .error .packetSizeExceeded
  | .badChecksum => .error .badChecksum

/-- `DEC_BYTE` returns the result of the row it takes. -/
theorem execDecByte_result {d : Byte} {s t : State} (h : execDecByte d s = .next t) :
    t.results = [(byteArm d s).result s] := by
  obtain ⟨s1, hstore, hfinish⟩ := execDecByte_cases h
  cases harm : byteArm d s with rw [harm] at hstore hfinish
  | accept => cases hstore; cases (deliver_eq _).symm.trans hfinish; rfl
  | beginFrame | takeLength | takeBody | missingSync | tooLong | badChecksum => cases hfinish; rfl

/-- A byte that is answered `PENDING` is a storing one, with its tests. -/
theorem guard_of_pending {d : Byte} {s t : State} (h : execDecByte d s = .next t) (hr : t.results = [.pending]) :
    ByteArm.beginFrame.Guard d s ∨ ByteArm.takeLength.Guard d s ∨ ByteArm.takeBody.Guard d s := by
  have hg := byteArm_guard d s
  have hres := (execDecByte_result h).symm.trans hr
  cases harm : byteArm d s with rw [harm] at hg hres
  | beginFrame => exact .inl hg
  | takeLength => exact .inr (.inl hg)
  | takeBody => exact .inr (.inr hg)
  | accept | missingSync | tooLong | badChecksum => cases hres

/-- A byte that delivers a frame is its checksum byte, with the tests of R117. -/
theorem guard_of_decoded {d l ty : Byte} {body : List Byte} {s t : State} (h : execDecByte d s = .next t)
    (hr : t.results = [.decoded l body ty]) : ByteArm.accept.Guard d s ∧ s.rxLen = l ∧ frameBody s = body := by
  have hg := byteArm_guard d s
  have hres := (execDecByte_result h).symm.trans hr
  cases harm : byteArm d s with rw [harm] at hg hres
  | accept => cases hres; exact ⟨hg, rfl, rfl⟩
  | beginFrame | takeLength | takeBody | missingSync | tooLong | badChecksum => cases hres

end Sys2Proof.Machine
end

section
/-! SUPPORT. The countdown, the outcomes and the host's loop (`41_decoder.md` R123 to R132): what `DEC_TICK`, `DEC_ARM` and
`DEC_ABORT` do, who writes `rx_timer`, and that an outcome leaves the decoder idle. -/

namespace Sys2Proof.Machine

/-! ### `DEC_TICK`, `DEC_ARM`, `DEC_ABORT` -/

/-- Settles O18: the four rows of `DEC_TICK`, told apart by the countdown and the fill count. -/
theorem decTickCountsDown : Obligations.DecTickCountsDown := by
  refine ⟨rfl, fun s => ⟨exec_decTick_of_stopped, fun hrun => ?_, fun hlast hempty => ?_, fun hlast hcnt => ?_⟩⟩
  · obtain ⟨v, hv⟩ : ∃ v, s.rxTimer = v + 2 := ⟨s.rxTimer - 2, by omega⟩
    rw [exec_decTick_of_running hv, hv]
    rfl
  · rcases execDecTick_cases s with ⟨h, -⟩ | ⟨h, -⟩ | ⟨-, -, hs⟩ | ⟨-, h, -⟩
    · omega
    · omega
    · exact hs
    · exact (h hempty).elim
  · rcases execDecTick_cases s with ⟨h, -⟩ | ⟨h, -⟩ | ⟨-, h, -⟩ | ⟨-, -, hs⟩
    · omega
    · omega
    · omega
    · exact hs

/-- Settles O19: the operation is the one write of `rx_timer`. -/
theorem decArmReloadsOnly : Obligations.DecArmReloadsOnly := ⟨rfl, fun _ => rfl⟩

/-- Settles O20: `RESET` writes the same decoder registers as `DEC_ABORT`, and the accumulators besides. -/
theorem decAbortDropsFrame : Obligations.DecAbortDropsFrame := by
  refine ⟨rfl, fun _ => rfl, fun s t u ht hu => ?_⟩
  cases ht
  cases hu
  exact ⟨rfl, rfl, rfl, rfl, rfl, rfl, rfl⟩

/-! ### An outcome leaves the decoder idle -/

/-- A result other than `PENDING` of `DEC_BYTE` leaves nothing accumulated: the frame in progress is delivered or dropped, and at
`MissingSync` none had begun. -/
theorem execDecByte_rxCnt_of_outcome {d : Byte} {s t : State} (hinv : Inv s) (h : execDecByte d s = .next t)
    (hr : t.results ≠ [.pending]) : t.rxCnt = 0 := by
  have hg := byteArm_guard d s
  rw [execDecByte_result h] at hr
  cases harm : byteArm d s with rw [harm] at hg hr
  | missingSync =>
    cases (execDecByte_of_guard hg rfl).symm.trans h
    exact hinv.awaitSync_iff.1 hg.1
  | tooLong | badChecksum => cases (execDecByte_of_guard hg rfl).symm.trans h; rfl
  | accept => cases ((execDecByte_of_guard hg rfl).trans (deliver_eq _)).symm.trans h; rfl
  | beginFrame | takeLength | takeBody => exact (hr rfl).elim

theorem execDecTick_rxCnt_of_outcome {s t : State} (h : execDecTick s = .next t) (hr : t.results ≠ [.pending]) :
    t.rxCnt = 0 := by
  rcases execDecTick_cases s with ⟨-, hs⟩ | ⟨-, hs⟩ | ⟨-, hempty, hs⟩ | ⟨-, -, hs⟩ <;> cases hs.symm.trans h
  · exact (hr rfl).elim
  · exact (hr rfl).elim
  · exact hempty
  · rfl

/-- Settles O22: nothing is accumulated after an outcome, and then R28 (a) has `rx_state` in `AWAIT_SYNC`. -/
theorem outcomeLeavesDecoderIdle : Obligations.OutcomeLeavesDecoderIdle := by
  intro i s t hinv hi h hr
  have hcnt : t.rxCnt = 0 := by
    rcases hi with ⟨d, rfl⟩ | rfl
    · exact execDecByte_rxCnt_of_outcome hinv h hr
    · exact execDecTick_rxCnt_of_outcome h hr
  exact ⟨hcnt, (hinv.exec h).awaitSync_iff.2 hcnt⟩

/-! ### Who writes `rx_timer` -/

/-- Every row of `DEC_BYTE` leaves the countdown reloaded (R126). -/
theorem execDecByte_rxTimer {d : Byte} {s t : State} (h : execDecByte d s = .next t) : t.rxTimer = s.cfg.tByte := by
  obtain ⟨s1, hstore, hfinish⟩ := execDecByte_cases h
  obtain ⟨u, -, hu, -, -, -, -, htimer, -⟩ := finishByte_frame (byteArm d s) d s1
  cases hu.symm.trans hfinish
  rcases storeTaken_cases hstore with ⟨-, rfl⟩ | ⟨_, -, -, rfl⟩ <;> exact htimer

theorem execDecTick_rxTimer {s t : State} (h : execDecTick s = .next t) : t.rxTimer = s.rxTimer - 1 := by
  rcases execDecTick_cases s with ⟨hv, hs⟩ | ⟨-, hs⟩ | ⟨hv, -, hs⟩ | ⟨hv, -, hs⟩ <;> cases hs.symm.trans h
  · simp [hv]
  · rfl
  · simp [hv]
  · simp [errorState, hv]

/-- After an outcome of `DEC_BYTE` the countdown runs on with nothing accumulated, and lapses once (R126, R124). -/
theorem runProgram_wait_of_outcome {d : Byte} {s t : State} (hinv : Inv s) (h : execDecByte d s = .next t)
    (hr : t.results ≠ [.pending]) :
    ∃ u, runProgram (wait s.cfg.tByte) t = .next u ∧
      u.results = List.replicate (s.cfg.tByte - 1) .pending ++ [.noMessage] ∧ u.rxTimer = 0 := by
  obtain ⟨v, hv⟩ : ∃ v, s.cfg.tByte = v + 1 := ⟨s.cfg.tByte - 1, (Nat.sub_add_cancel hinv.tByte_pos).symm⟩
  obtain ⟨u, hu, hres, htimer, -⟩ := runProgram_wait_lapses v t ((execDecByte_rxTimer h).trans hv)
  rw [if_pos (execDecByte_rxCnt_of_outcome hinv h hr)] at hres
  exact ⟨u, hv ▸ hu, by rw [hres, hv]; rfl, htimer⟩

/-- Settles O21: one clause for each writer; an operation outside the decoder family leaves the decoder. -/
theorem timerWriters : Obligations.TimerWriters := by
  refine ⟨fun _ => rfl, fun i s t h => ⟨?_, ?_, ?_, ?_, ?_⟩⟩
  · rintro (⟨d, rfl⟩ | rfl)
    · exact execDecByte_rxTimer h
    · cases h; rfl
  · rintro rfl
    exact execDecTick_rxTimer h
  · rintro (rfl | rfl) <;> cases h <;> rfl
  · intro hi
    obtain ⟨hdec, hreset⟩ : i.isDecoder = false ∧ i ≠ .reset := by
      rcases hi with rfl | ⟨ty, p, rfl⟩ | hindex
      · exact ⟨rfl, nofun⟩
      · exact ⟨rfl, nofun⟩
      · cases i with
        | accUpdate | accLoad => exact ⟨rfl, nofun⟩
        | _ => cases hindex
    rw [exec_of_not_isDecoder h hdec hreset]
  · rintro hinv ⟨d, rfl⟩ hr
    exact runProgram_wait_of_outcome hinv h hr

/-! ### The read attempt -/

theorem readLoop_cons {e : ChannelEvent} {es : List ChannelEvent} {s s1 : State} {r : Result}
    (h : exec e.operation s = .next s1) (hr : s1.results = [r]) :
    readLoop (e :: es) s = if r = .pending then readLoop es s1 else .returned r s1 es := by
  simp [readLoop, h, hr]

/-- An event's operation completes with one result, which may be an outcome only where it leaves the decoder idle. -/
theorem exec_operation (e : ChannelEvent) {s : State} (hinv : Inv s) :
    ∃ t r, exec e.operation s = .next t ∧ t.results = [r] ∧ Inv t ∧
      (r ≠ .pending → t.rxState = .awaitSync ∧ t.rxCnt = 0) := by
  have hop : (∃ d, e.operation = .decByte d) ∨ e.operation = .decTick := by
    cases e with
    | byte d => exact .inl ⟨d, rfl⟩
    | tick => exact .inr rfl
  have hmeets : e.operation.Meets s.cfg := by rcases hop with ⟨d, hd⟩ | hd <;> rw [hd] <;> trivial
  obtain ⟨t, ht⟩ := (operationsTotal e.operation s hinv).1 hmeets
  have hframe : ∀ b c, e.operation ≠ .frame b c := by rcases hop with ⟨d, hd⟩ | hd <;> rw [hd] <;> nofun
  obtain ⟨r, hr, -⟩ := exec_mayReturn ht hframe
  refine ⟨t, r, ht, hr, hinv.exec ht, fun hne => And.symm ?_⟩
  exact outcomeLeavesDecoderIdle _ s t hinv hop ht (by simpa [hr] using hne)

/-- The loop of `decode_next` in a state with the invariants. -/
theorem readLoop_leaves_idle (events : List ChannelEvent) {s : State} (hinv : Inv s) :
    readLoop events s ≠ .stopped ∧ ∀ r t rest, readLoop events s = .returned r t rest →
      r ≠ .pending ∧ t.rxState = .awaitSync ∧ t.rxCnt = 0 ∧ Inv t := by
  induction events generalizing s with
  | nil => exact ⟨nofun, nofun⟩
  | cons e es ih =>
    obtain ⟨s1, r1, h1, hr1, hinv1, hidle⟩ := exec_operation e hinv
    rw [readLoop_cons h1 hr1]
    split_ifs with hpending
    · exact ih hinv1
    · refine ⟨nofun, fun r t rest h => ?_⟩
      cases h
      obtain ⟨hst, hcnt⟩ := hidle hpending
      exact ⟨hpending, hst, hcnt, hinv1⟩

/-- Settles O56: arming keeps the invariants, and the loop runs on until the first outcome, by induction on the events. -/
theorem readAttemptLeavesNothing : Obligations.ReadAttemptLeavesNothing :=
  fun events _ hinv => readLoop_leaves_idle events (hinv.exec (i := .decArm) rfl)

/-! ### The time-free reading -/

/-- The time-free reading tells a stopped countdown and one at its last tick apart. -/
theorem forgetCount_of_le_one {s : State} (h : s.rxTimer ≤ 1) : forgetCount s = s := by
  rw [forgetCount, Nat.min_eq_right h]
  rfl

/-- It does not tell running countdowns apart. -/
theorem forgetCount_setTimer_of_pos {v : Nat} {s : State} (hv : 0 < v) (hs : 0 < s.rxTimer) :
    forgetCount (setTimer v s) = forgetCount s := by
  rw [forgetCount, forgetCount, setTimer_rxTimer, Nat.min_eq_left hv, Nat.min_eq_left hs]
  rfl

theorem execDecTick_of_last {s : State} (h : s.rxTimer = 1) : execDecTick s = lapse s := by
  simp [execDecTick, h]

/-- Only `DEC_TICK` reads the countdown: any other operation, `DEC_BYTE` and a wire frame included, writes it or carries it along. -/
theorem exec_setTimer {i : Instr} {s t : State} (hi : i ≠ .decTick) (h : exec i s = .next t) (v : Nat) :
    exec i (setTimer v s) = .next t ∨ t.rxTimer = s.rxTimer ∧ exec i (setTimer v s) = .next (setTimer v t) := by
  cases i with
  | decTick => exact (hi rfl).elim
  | reset | decArm | decAbort | decByte | frame => exact .inl h
  | nop => cases h; exact .inr ⟨rfl, rfl⟩
  | enc ty p =>
    have hallowed := payloadAllowed_of_execEnc h
    obtain rfl := execEnc_eq_next h
    exact .inr ⟨rfl, execEnc_of_allowed hallowed⟩
  | accUpdate | accLoad =>
    obtain ⟨a, ha, rfl⟩ := updateAcc_cases h
    exact .inr ⟨rfl, updateAcc_of_some (s := setTimer v s) ha _⟩
  | reserved9 | reservedA | reservedB | reservedC | reservedD | reservedE | reservedF => cases h

/-- Settles O57: a tick that does not lapse leaves the countdown armed or stopped as it was; any other operation does not read
the countdown. -/
theorem timeFreeReadingCovers : Obligations.TimeFreeReadingCovers := by
  refine ⟨fun s t h => ?_, fun i s t hi h => ?_⟩
  · rcases Nat.lt_trichotomy s.rxTimer 1 with hstopped | hlast | hrun
    · cases (exec_decTick_of_stopped (Nat.lt_one_iff.1 hstopped)).symm.trans h
      exact .inl ⟨rfl, rfl⟩
    · have hlapse : lapse s = .next t := (execDecTick_of_last hlast).symm.trans h
      have hstop : t.rxTimer ≤ 1 := by rw [execDecTick_rxTimer h]; omega
      rw [forgetCount_of_le_one hlast.le, forgetCount_of_le_one hstop, ← hlapse]
      exact .inr (if_pos (by omega))
    · obtain ⟨v, hv⟩ : ∃ v, s.rxTimer = v + 2 := ⟨s.rxTimer - 2, by omega⟩
      cases (exec_decTick_of_running hv).symm.trans h
      have hsame : forgetCount (setTimer (v + 1) s) = forgetCount s :=
        forgetCount_setTimer_of_pos (Nat.succ_pos v) (Nat.zero_lt_of_lt hrun)
      have hforget := congrArg forgetResults hsame
      exact .inl ⟨rfl, hforget⟩
  · rcases exec_setTimer hi h (min 1 s.rxTimer) with hsame | ⟨htimer, hsame⟩
    · exact ⟨t, hsame, rfl, rfl⟩
    · refine ⟨_, hsame, ?_, rfl⟩
      rw [← htimer]
      exact forgetCount_of_le_one (Nat.min_le_left _ _)

end Sys2Proof.Machine
end

section
/-! SUPPORT. Sequences of bytes at the decoder (`41_decoder.md` R115 to R121, R131 to R134): what the bytes of a frame leave behind,
byte by byte, and what their last byte then answers. -/

namespace Sys2Proof.Machine

/-! ### One sequence after another -/

/-- Two sequences that run one after the other. -/
theorem feedBytes_append_of_next {xs ys : List Byte} {s s1 s2 : State} (h1 : feedBytes xs s = .next s1)
    (h2 : feedBytes ys s1 = .next s2) : feedBytes (xs ++ ys) s = .next { s2 with results := s1.results ++ s2.results } := by
  simp [feedBytes_append, h1, h2]

theorem feedBytes_append_cases {xs ys : List Byte} {s t : State} (h : feedBytes (xs ++ ys) s = .next t) :
    ∃ s1 s2, feedBytes xs s = .next s1 ∧ feedBytes ys s1 = .next s2 ∧ t = { s2 with results := s1.results ++ s2.results } := by
  rw [feedBytes_append] at h
  obtain ⟨s1, h1, h⟩ := andThen_eq_next h
  obtain ⟨s2, h2, h⟩ := andThen_eq_next h
  cases h
  exact ⟨s1, s2, h1, h2, rfl⟩

/-- A sequence of one byte is that byte's operation. -/
theorem feedBytes_singleton {d : Byte} {s t : State} (h : execDecByte d s = .next t) : feedBytes [d] s = .next t := by
  simpa using feedBytes_cons h (feedBytes_nil t)

theorem feedBytes_singleton_cases {d : Byte} {s t : State} (h : feedBytes [d] s = .next t) : execDecByte d s = .next t := by
  obtain ⟨s1, s2, h1, h2, rfl⟩ := feedBytes_cons_cases h
  cases h2
  simpa using h1

/-! ### The bytes of a frame before its last -/

/-- From the state `s0` the decoder has taken the bytes `front` of a frame: they lie in the buffer over what it held, and no free
value was drawn. -/
structure FedFront (s0 : State) (front : List Byte) (s : State) : Prop where
  taken : FrontTaken front s
  cfg : s.cfg = s0.cfg
  draws : s.draws = s0.draws
  buffer : ∀ a, s.rxBuf.read a = front[a]?.or (s0.rxBuf.read a)

theorem fedFront_nil {s : State} (hst : s.rxState = .awaitSync) : FedFront s [] s :=
  ⟨⟨hst, by simp, by simp, by simp⟩, rfl, rfl, by simp⟩

/-- The result port is no part of it. -/
theorem FedFront.of_results {s0 s : State} {front : List Byte} (h : FedFront s0 front s) (r : List Result) :
    FedFront s0 front { s with results := r } :=
  ⟨h.taken.of_ports _ _, h.cfg, h.draws, h.buffer⟩

/-- The byte is stored behind those before it, and no free value is drawn. -/
theorem FrontTaken.execDecByte_stores {front : List Byte} {s t : State} (h : FrontTaken front s) (hp : s.cfg.Valid) {d : Byte}
    (hd : FrameFront s.cfg (front ++ [d])) (ht : Machine.execDecByte d s = .next t) :
    t.draws = s.draws ∧ t.rxBuf = s.rxBuf.write front.length d := by
  rcases eq_or_ne front [] with rfl | hne
  · obtain rfl : d = Config.sync := hd.sync d rfl
    cases (execDecByte_sync hp h.position).symm.trans ht
    exact ⟨rfl, rfl⟩
  · cases (h.execDecByte_of_ne_nil hne hd).symm.trans ht
    exact ⟨rfl, by simp [Machine.takeByte, h.rxCnt_eq hne]⟩

/-- A list of bytes that grows at its end overlays a memory as one more write does. -/
theorem read_write_length {m m0 : Memory} {front : List Byte} (h : ∀ a, m.read a = front[a]?.or (m0.read a)) (d : Byte) (a : Nat) :
    (m.write front.length d).read a = (front ++ [d])[a]?.or (m0.read a) := by
  rcases eq_or_ne a front.length with rfl | hne
  · simp
  · rw [Memory.read_write_of_ne _ _ hne, h a]
    rcases Nat.lt_or_gt_of_ne hne with hlt | hgt
    · rw [List.getElem?_append_left hlt]
    · rw [List.getElem?_eq_none hgt.le, List.getElem?_eq_none (by simpa using hgt)]

theorem FedFront.execDecByte {s0 s : State} {front : List Byte} (h : FedFront s0 front s) (hp : s0.cfg.Valid) {d : Byte}
    (hd : FrameFront s0.cfg (front ++ [d])) :
    ∃ t, execDecByte d s = .next t ∧ FedFront s0 (front ++ [d]) t ∧ t.results = [.pending] := by
  have hp' : s.cfg.Valid := h.cfg ▸ hp
  have hd' : FrameFront s.cfg (front ++ [d]) := h.cfg ▸ hd
  obtain ⟨t, ht, htaken, hcfg, -, hres⟩ := h.taken.execDecByte hp' hd'
  obtain ⟨hdraws, hbuf⟩ := h.taken.execDecByte_stores hp' hd' ht
  refine ⟨t, ht, ⟨htaken, hcfg.trans h.cfg, hdraws.trans h.draws, fun a => ?_⟩, hres⟩
  rw [hbuf]
  exact read_write_length h.buffer d a

/-- The bytes of a frame before its checksum byte are taken one by one, each with `PENDING`. -/
theorem FedFront.feedBytes {s0 s : State} {front bytes : List Byte} (h : FedFront s0 front s) (hp : s0.cfg.Valid)
    (hfront : FrameFront s0.cfg (front ++ bytes)) :
    ∃ t, feedBytes bytes s = .next t ∧ FedFront s0 (front ++ bytes) t ∧
      t.results = List.replicate bytes.length .pending := by
  induction bytes generalizing front s with
  | nil => exact ⟨_, rfl, by simpa using h.of_results [], rfl⟩
  | cons d bytes ih =>
    rw [List.append_cons] at hfront ⊢
    obtain ⟨s1, h1, hfed1, hres1⟩ := h.execDecByte hp hfront.of_append
    obtain ⟨s2, h2, hfed2, hres2⟩ := ih hfed1 hfront
    exact ⟨_, feedBytes_cons h1 h2, hfed2.of_results _, by simp [hres1, hres2, List.replicate_succ]⟩

/-- A front of a frame and the byte behind it. -/
theorem feedBytes_front_byte {s : State} {front : List Byte} {d : Byte} (hp : s.cfg.Valid) (hst : s.rxState = .awaitSync)
    (hfront : FrameFront s.cfg front) :
    ∃ s1, FedFront s front s1 ∧ ∀ t, execDecByte d s1 = .next t →
      feedBytes (front ++ [d]) s = .next { t with results := List.replicate front.length .pending ++ t.results } := by
  obtain ⟨s1, h1, hfed, hres⟩ := (fedFront_nil hst).feedBytes hp hfront
  exact ⟨s1, hfed, fun t ht => hres ▸ feedBytes_append_of_next h1 (feedBytes_singleton ht)⟩

/-! ### The byte behind the front of a frame -/

/-- The front of a frame with the bytes `body` behind the length byte `l`. -/
theorem frameFront_cons {c : Params} {l : Byte} {body : List Byte} (hcap : body.length + 2 ≤ c.cap)
    (hlen : body.length ≤ l.toNat) : FrameFront c (Config.sync :: l :: body) :=
  ⟨by simp, hcap, by simpa using hlen⟩

/-- With its length byte taken a frame is in `READ_BODY`, at the count and with the length that its bytes say. -/
theorem FrontTaken.registers {sync l : Byte} {body : List Byte} {s : State} (h : FrontTaken (sync :: l :: body) s) :
    s.rxState = .readBody ∧ s.rxCnt = body.length + 2 ∧ s.rxLen = l ∧ s.rxXor = xorAll (sync :: l :: body) :=
  ⟨h.position, h.rxCnt_eq (by simp), h.lengthByte l rfl, h.checksum (by simp)⟩

/-- What a frame that fits answers to its last byte (R117, R118, R120). -/
def checksumResult (l : Byte) (body : List Byte) (cs : Byte) (draw : Nat) : Result :=
  if cs = xorAll (Config.sync :: l :: body) then .decoded l body (outType body draw) else .error .badChecksum

theorem checksumResult_right (l : Byte) (body : List Byte) (draw : Nat) :
    checksumResult l body (xorAll (Config.sync :: l :: body)) draw = .decoded l body (outType body draw) := if_pos rfl

theorem checksumResult_wrong {l cs : Byte} {body : List Byte} (h : cs ≠ xorAll (Config.sync :: l :: body)) (draw : Nat) :
    checksumResult l body cs draw = .error .badChecksum := if_neg h

/-- The checksum byte of a complete frame delivers or drops it, and is not stored (log 11). -/
theorem FrontTaken.execDecByte_last {l : Byte} {body : List Byte} {s : State} (h : FrontTaken (Config.sync :: l :: body) s)
    (hlen : body.length = l.toNat) (hfits : body.length + 3 ≤ s.cfg.cap) (cs : Byte) :
    ∃ t, Machine.execDecByte cs s = .next t ∧ t.results = [checksumResult l body cs s.draws] ∧
      t.rxState = .awaitSync ∧ t.rxCnt = 0 ∧ t.rxBuf = s.rxBuf := by
  obtain ⟨hst, hcnt, hl, hxor⟩ := h.registers
  have hcap : s.rxCnt + 1 ≤ s.cfg.cap := by omega
  have hend : s.rxCnt = s.rxLen.toNat + 2 := by rw [hl]; omega
  by_cases hcs : cs = xorAll (Config.sync :: l :: body)
  · have hrun := execDecByte_accept hst hcap hend.ge
    rw [hxor, ← hcs, h.frameBody hlen, hl] at hrun
    exact ⟨_, hrun, by rw [hcs, checksumResult_right], rfl, rfl, rfl⟩
  · have hrun := decByteBadChecksum cs s hst hcap hend (by rwa [hxor])
    exact ⟨_, hrun, by rw [checksumResult_wrong hcs], rfl, rfl, rfl⟩

/-! ### Whole frames from `AWAIT_SYNC` -/

/-- A frame that fits: `PENDING` up to the checksum byte, then what that byte decides; the bytes before it are stored. -/
theorem feedBytes_frame_of_fits {s : State} {l : Byte} {body : List Byte} (hp : s.cfg.Valid) (hst : s.rxState = .awaitSync)
    (hlen : body.length = l.toNat) (hfits : body.length + 3 ≤ s.cfg.cap) (cs : Byte) :
    ∃ t, feedBytes (Config.sync :: l :: (body ++ [cs])) s = .next t ∧
      t.results = List.replicate (body.length + 2) .pending ++ [checksumResult l body cs s.draws] ∧
      t.rxState = .awaitSync ∧ t.rxCnt = 0 ∧
      ∀ a, t.rxBuf.read a = (Config.sync :: l :: body)[a]?.or (s.rxBuf.read a) := by
  obtain ⟨s1, hfed, hlast⟩ := feedBytes_front_byte (d := cs) hp hst (frameFront_cons (by omega) hlen.le)
  obtain ⟨t, ht, hres, hstate, hcnt, hbuf⟩ := hfed.taken.execDecByte_last hlen (hfed.cfg ▸ hfits) cs
  refine ⟨_, hlast t ht, ?_, hstate, hcnt, fun a => ?_⟩
  · simp [hres, hfed.draws]
  · simp only [hbuf, hfed.buffer]

/-- A frame that does not fit is dropped at the byte of wire offset `CAP` (R115). -/
theorem feedBytes_tooLong {s : State} {l : Byte} {body : List Byte} (hp : s.cfg.Valid) (hst : s.rxState = .awaitSync)
    (hfull : body.length + 2 = s.cfg.cap) (hlong : s.cfg.cap < l.toNat + 3) (d : Byte) :
    ∃ t, feedBytes (Config.sync :: l :: (body ++ [d])) s = .next t ∧
      t.results = List.replicate s.cfg.cap .pending ++ [.error .packetSizeExceeded] ∧ t.rxState = .awaitSync ∧ t.rxCnt = 0 := by
  obtain ⟨s1, hfed, hlast⟩ := feedBytes_front_byte (d := d) hp hst (frameFront_cons (l := l) hfull.le (by omega))
  obtain ⟨hstate, hcnt, -⟩ := hfed.taken.registers
  have hcap : s1.cfg.cap < s1.rxCnt + 1 := by rw [hfed.cfg]; omega
  refine ⟨_, hlast _ (execDecByte_tooLong hstate hcap), ?_, rfl, rfl⟩
  rw [← hfull]
  rfl

/-- Settles O12: the row of R115, and the frame whose front fills the buffer. -/
theorem decByteTooLong : Obligations.DecByteTooLong := by
  refine ⟨fun d s hst hcap => execDecByte_tooLong hst hcap, fun l d body s hp hst hfull hlong => ?_⟩
  rw [← feedBytes_eq_runProgram_feed]
  exact feedBytes_tooLong hp hst hfull hlong d

/-! ### Which sequences are accepted -/

/-- In `AWAIT_SYNC` no byte is taken. -/
theorem FrontTaken.eq_nil {front : List Byte} {s : State} (h : FrontTaken front s) (hst : s.rxState = .awaitSync) :
    front = [] := by
  have hposition := h.position.symm.trans hst
  rcases front with _ | ⟨b, _ | ⟨l, body⟩⟩
  · rfl
  · cases hposition
  · cases hposition

/-- In `READ_LENGTH` one byte is taken. -/
theorem FrontTaken.eq_singleton {front : List Byte} {s : State} (h : FrontTaken front s) (hst : s.rxState = .readLength) :
    ∃ b, front = [b] := by
  have hposition := h.position.symm.trans hst
  rcases front with _ | ⟨b, _ | ⟨l, body⟩⟩
  · cases hposition
  · exact ⟨b, rfl⟩
  · cases hposition

/-- In `READ_BODY` the length byte is taken, and perhaps body bytes. -/
theorem FrontTaken.eq_cons {front : List Byte} {s : State} (h : FrontTaken front s) (hst : s.rxState = .readBody) :
    ∃ b l body, front = b :: l :: body := by
  have hposition := h.position.symm.trans hst
  rcases front with _ | ⟨b, _ | ⟨l, body⟩⟩
  · cases hposition
  · cases hposition
  · exact ⟨b, l, body, rfl⟩

/-- A byte answered `PENDING` continues the front of a frame. -/
theorem FrontTaken.frameFront_of_pending {front : List Byte} {s t : State} (h : FrontTaken front s) (hp : s.cfg.Valid)
    (hfront : FrameFront s.cfg front) {d : Byte} (ht : Machine.execDecByte d s = .next t) (hr : t.results = [.pending]) :
    FrameFront s.cfg (front ++ [d]) := by
  have hcap4 : 4 ≤ s.cfg.cap := hp.1
  rcases guard_of_pending ht hr with ⟨hst, rfl⟩ | hst | ⟨hst, hcap, hbody⟩
  · obtain rfl := h.eq_nil hst
    exact ⟨by simp, Nat.le_trans (by decide : 1 ≤ 4) hcap4, by simp⟩
  · obtain ⟨b, rfl⟩ := h.eq_singleton hst
    obtain rfl := hfront.sync b rfl
    exact frameFront_cons (Nat.le_trans (by decide : 2 ≤ 4) hcap4) (Nat.zero_le _)
  · obtain ⟨b, l, body, rfl⟩ := h.eq_cons hst
    obtain rfl := hfront.sync b rfl
    obtain ⟨-, hcnt, hl, -⟩ := h.registers
    rw [hl] at hbody
    exact frameFront_cons (by simp; omega) (by simp; omega)

/-- Bytes that are all answered `PENDING` continue the front of a frame. -/
theorem FedFront.frameFront_of_pending {s0 s t : State} {front bytes : List Byte} (h : FedFront s0 front s) (hp : s0.cfg.Valid)
    (hfront : FrameFront s0.cfg front) (ht : Machine.feedBytes bytes s = .next t)
    (hr : t.results = List.replicate bytes.length .pending) : FrameFront s0.cfg (front ++ bytes) := by
  induction bytes generalizing front s t with
  | nil => simpa using hfront
  | cons d bytes ih =>
    obtain ⟨s1, s2, h1, h2, rfl⟩ := feedBytes_cons_cases ht
    obtain ⟨r, hr1, -⟩ := execDecByte_mayReturn h1
    obtain ⟨rfl, hr2⟩ : r = .pending ∧ s2.results = List.replicate bytes.length .pending := by
      simpa [hr1, List.replicate_succ] using hr
    have hfront1 : FrameFront s0.cfg (front ++ [d]) :=
      h.cfg ▸ h.taken.frameFront_of_pending (h.cfg ▸ hp) (h.cfg ▸ hfront) h1 hr1
    obtain ⟨s1', h1', hfed1, -⟩ := h.execDecByte hp hfront1
    cases h1'.symm.trans h1
    simpa using ih hfed1 hfront1 h2 hr2

/-- A byte that delivers a frame behind its front is the checksum byte of the frame delivered (R117). -/
theorem FrontTaken.frame_of_decoded {front body : List Byte} {d l ty : Byte} {s t : State} (h : FrontTaken front s)
    (hfront : FrameFront s.cfg front) (ht : Machine.execDecByte d s = .next t) (hr : t.results = [.decoded l body ty]) :
    front = Config.sync :: l :: body ∧ d = xorAll front ∧ body.length = l.toNat ∧ l.toNat + 3 ≤ s.cfg.cap := by
  obtain ⟨⟨hst, hcap, hend, rfl⟩, hl, hbody⟩ := guard_of_decoded ht hr
  obtain ⟨b, l', body', rfl⟩ := h.eq_cons hst
  obtain rfl := hfront.sync b rfl
  obtain ⟨-, hcnt, hl', hxor⟩ := h.registers
  obtain rfl := hl'.symm.trans hl
  have hin : body'.length ≤ l'.toNat := by simpa using hfront.inLength l' rfl
  have hcount : body'.length = l'.toNat := by rw [hl'] at hend; omega
  obtain rfl := (h.frameBody hcount).symm.trans hbody
  exact ⟨rfl, hxor, hcount, by omega⟩

theorem feedBytes_results_length {bs : List Byte} {s t : State} (h : feedBytes bs s = .next t) :
    t.results.length = bs.length := (feedBytes_mayReturn h 0x00#8).1

/-- Bytes and a last one that together run: each part runs, with its part of the results. -/
theorem feedBytes_concat_cases {bs : List Byte} {d : Byte} {s t : State} {rs : List Result} {r : Result}
    (h : feedBytes (bs ++ [d]) s = .next t) (hr : t.results = rs ++ [r]) :
    ∃ s1 s2, feedBytes bs s = .next s1 ∧ s1.results = rs ∧ execDecByte d s1 = .next s2 ∧ s2.results = [r] := by
  obtain ⟨s1, s2, h1, h2, rfl⟩ := feedBytes_append_cases h
  obtain ⟨hrs, hlast⟩ := List.append_inj' hr (feedBytes_results_length h2)
  exact ⟨s1, s2, h1, hrs, feedBytes_singleton_cases h2, hlast⟩

/-- Bytes from `AWAIT_SYNC` whose last one delivers a frame, with `PENDING` before it, are that frame. -/
theorem frame_of_feedBytes_decoded {s t : State} {bytes body : List Byte} {l ty : Byte} (hp : s.cfg.Valid)
    (hst : s.rxState = .awaitSync) (h : feedBytes bytes s = .next t)
    (hr : t.results = List.replicate (bytes.length - 1) .pending ++ [.decoded l body ty]) :
    body.length = l.toNat ∧ l.toNat + 3 ≤ s.cfg.cap ∧
      bytes = Config.sync :: l :: (body ++ [xorAll (Config.sync :: l :: body)]) := by
  have hlength := feedBytes_results_length h
  rcases List.eq_nil_or_concat' bytes with rfl | ⟨front, d, rfl⟩
  · simp [hr] at hlength
  obtain ⟨s1, s2, h1, hr1, h2, hr2⟩ := feedBytes_concat_cases h hr
  have hfront : FrameFront s.cfg front := by
    simpa using (fedFront_nil hst).frameFront_of_pending hp ⟨by simp, by simp, by simp⟩ h1 (by simpa using hr1)
  obtain ⟨s1', h1', hfed, -⟩ := (fedFront_nil hst).feedBytes hp (by simpa using hfront)
  cases h1'.symm.trans h1
  obtain ⟨rfl, rfl, hlen, hfits⟩ := hfed.taken.frame_of_decoded (hfed.cfg ▸ hfront) h2 hr2
  exact ⟨hlen, hfed.cfg ▸ hfits, rfl⟩

/-- Settles O24: the bytes before the last are a front of a frame because they are answered `PENDING`, and the last one ends it;
conversely a frame that fits is delivered. -/
theorem acceptanceLaw : Obligations.AcceptanceLaw := by
  intro s bytes l body hp hst
  rw [← feedBytes_eq_runProgram_feed]
  constructor
  · rintro ⟨t, ty, h, hr⟩
    exact frame_of_feedBytes_decoded hp hst h hr
  · rintro ⟨hlen, hfits, rfl⟩
    obtain ⟨t, ht, hres, -⟩ := feedBytes_frame_of_fits hp hst hlen (by omega) (xorAll (Config.sync :: l :: body))
    refine ⟨t, outType body s.draws, ht, ?_⟩
    rw [hres, checksumResult_right]
    simp

/-! ### Noise before a frame -/

/-- Bytes without the sync value cost `MissingSync` each and reload the countdown. -/
theorem feedBytes_noise {noise : List Byte} {s : State} (hst : s.rxState = .awaitSync) (hnoise : ∀ b ∈ noise, b ≠ 0xA4#8) :
    feedBytes noise s = .next { s with
      rxTimer := if noise = [] then s.rxTimer else s.cfg.tByte
      results := List.replicate noise.length (.error .missingSync) } := by
  induction noise generalizing s with
  | nil => rfl
  | cons b noise ih =>
    obtain ⟨hb, hnoise⟩ := List.forall_mem_cons.1 hnoise
    have hrest := ih (s := { s with rxTimer := s.cfg.tByte, results := [.error .missingSync] }) hst hnoise
    rw [feedBytes_cons (decByteMissingSync b s hst hb) hrest]
    simp [List.replicate_succ]

/-- An allowed payload and its type are the body of a frame that fits, and are counted by a length byte (R73, R103). -/
theorem body_of_payloadAllowed {c : Params} {p : List Byte} (hp : c.Valid) (h : payloadAllowed c p.length) (ty : Byte) :
    (ty :: p).length = (BitVec.ofNat 8 (p.length + 1)).toNat ∧ (ty :: p).length + 3 ≤ c.cap := by
  obtain ⟨hmax, hfits⟩ : p.length ≤ 254 ∧ p.length ≤ c.cap - 4 := le_min_iff.1 h
  have hcap4 : 4 ≤ c.cap := hp.1
  rw [List.length_cons]
  exact ⟨(toNat_lengthByte (by omega)).symm, by omega⟩

/-- An encoded frame is decoded from `AWAIT_SYNC`. -/
theorem feedBytes_encodeFrame {s : State} {p : List Byte} (hp : s.cfg.Valid) (hst : s.rxState = .awaitSync)
    (hallowed : payloadAllowed s.cfg p.length) (ty : Byte) :
    ∃ t, feedBytes (encodeFrame ty p) s = .next t ∧ t.results =
      List.replicate (p.length + 3) .pending ++ [.decoded (BitVec.ofNat 8 (p.length + 1)) (ty :: p) ty] := by
  obtain ⟨hlen, hfits⟩ := body_of_payloadAllowed hp hallowed ty
  obtain ⟨t, ht, hres, -⟩ := feedBytes_frame_of_fits hp hst hlen hfits (frameChecksum (ty :: p))
  exact ⟨t, encodeFrame_eq_cons ty p ▸ ht, hres.trans (congrArg (_ ++ [·]) (checksumResult_right _ _ _))⟩

/-- Settles O26: the noise leaves the decoder in `AWAIT_SYNC`, from where the frame is decoded. -/
theorem syncLossRecovery : Obligations.SyncLossRecovery := by
  intro s noise ty p hp hst _ hnoise hallowed
  have hrun := feedBytes_noise hst hnoise
  simp only [← feedBytes_eq_runProgram_feed]
  refine ⟨fun hne => by rw [hrun, if_neg hne], ?_⟩
  obtain ⟨s1, h1, hst1, hcfg1, hres1⟩ : ∃ s1, feedBytes noise s = .next s1 ∧ s1.rxState = .awaitSync ∧ s1.cfg = s.cfg ∧
      s1.results = List.replicate noise.length (.error .missingSync) := ⟨_, hrun, hst, rfl, rfl⟩
  obtain ⟨t, ht, hres⟩ := feedBytes_encodeFrame (hcfg1 ▸ hp) hst1 (hcfg1 ▸ hallowed) ty
  exact ⟨_, feedBytes_append_of_next h1 ht, by rw [hres1, hres, List.append_assoc]⟩

/-! ### Flipped bits -/

/-- A single bit is not the zero byte. -/
theorem bit_ne_zero {bit : Nat} (h : bit < 8) : BitVec.ofNat 8 (2 ^ bit) ≠ 0x00#8 := by
  intro heq
  have hlt : 2 ^ bit < 2 ^ 8 := Nat.pow_lt_pow_right (by decide) h
  have hzero : 2 ^ bit % 2 ^ 8 = 0 := congrArg BitVec.toNat heq
  rw [Nat.mod_eq_of_lt hlt] at hzero
  exact absurd hzero (Nat.two_pow_pos bit).ne'

/-- Flipping bits of one byte flips them in the exclusive-or. -/
theorem xorAll_set_xor {bs : List Byte} {i : Nat} {b : Byte} (h : bs[i]? = some b) (e : Byte) :
    xorAll (bs.set i (b ^^^ e)) = xorAll bs ^^^ e := by
  rw [xorAll_set h, BitVec.xor_assoc, ← BitVec.xor_assoc b, BitVec.xor_self, BitVec.zero_xor]

/-- A last byte is the exclusive-or of the bytes before it exactly when the exclusive-or of all is zero. -/
theorem xorAll_concat_eq_zero_iff (bs : List Byte) (d : Byte) : xorAll (bs ++ [d]) = 0x00#8 ↔ d = xorAll bs := by
  rw [xorAll_append, xorAll_cons, xorAll_nil, BitVec.xor_zero, BitVec.xor_eq_zero_iff, eq_comm]

theorem xorAll_encodeFrame (ty : Byte) (p : List Byte) : xorAll (encodeFrame ty p) = 0x00#8 :=
  (xorAll_concat_eq_zero_iff _ _).2 rfl

/-- An encoded frame with a byte at wire offset 2 or later replaced still has its sync byte, its length byte and its length. -/
theorem encodeFrame_set (ty : Byte) (p : List Byte) (j : Nat) (b : Byte) :
    ∃ body d, body.length = p.length + 1 ∧
      (encodeFrame ty p).set (j + 2) b = Config.sync :: BitVec.ofNat 8 (p.length + 1) :: (body ++ [d]) := by
  have hlength : ((ty :: p ++ [frameChecksum (ty :: p)]).set j b).length = p.length + 2 := by simp
  rcases List.eq_nil_or_concat' ((ty :: p ++ [frameChecksum (ty :: p)]).set j b) with hnil | ⟨body, d, hconcat⟩
  · rw [hnil] at hlength
    cases hlength
  · rw [hconcat, List.length_append] at hlength
    exact ⟨body, d, Nat.succ.inj hlength, by rw [← hconcat, encodeFrame_eq_cons]; rfl⟩

/-- Settles O27: with one bit flipped the exclusive-or of all bytes of the frame is that bit and not zero, so that the last byte is
not the checksum of those before it. -/
theorem singleBitErrorCaught : Obligations.SingleBitErrorCaught := by
  intro s ty p i bit b hp hst hallowed hi hb hbit
  obtain ⟨j, rfl⟩ : ∃ j, i = j + 2 := ⟨i - 2, (Nat.sub_add_cancel hi).symm⟩
  obtain ⟨hlen, hfits⟩ := body_of_payloadAllowed hp hallowed ty
  obtain ⟨body, d, hcount, hframe⟩ := encodeFrame_set ty p j (b ^^^ BitVec.ofNat 8 (2 ^ bit))
  have hwrong : d ≠ xorAll (Config.sync :: BitVec.ofNat 8 (p.length + 1) :: body) := by
    intro hd
    have hzero := (xorAll_concat_eq_zero_iff _ d).2 hd
    rw [List.cons_append, List.cons_append, ← hframe, xorAll_set_xor hb, xorAll_encodeFrame, BitVec.zero_xor] at hzero
    exact bit_ne_zero hbit hzero
  obtain ⟨t, ht, hres, hstate, hcnt, -⟩ := feedBytes_frame_of_fits hp hst (hcount.trans hlen) (hcount ▸ hfits) d
  rw [checksumResult_wrong hwrong, hcount] at hres
  rw [← feedBytes_eq_runProgram_feed, hframe]
  exact ⟨t, ht, hres, hstate, hcnt⟩

/-- Settles O28: two equal flips cancel in the checksum, so that the changed body is delivered. -/
theorem doubleErrorMissed : Obligations.DoubleErrorMissed := by
  intro s body i j bit x y hp hst hlen hfits hij hx hy hbit wrong
  have hy' : (body.set i (x ^^^ BitVec.ofNat 8 (2 ^ bit)))[j]? = some y := (List.getElem?_set_ne hij).trans hy
  have hlength : wrong.length = body.length := by simp [wrong]
  have hchecksum : frameChecksum body = frameChecksum wrong := by
    have hxor : xorAll wrong = xorAll body := by
      rw [xorAll_set_xor hy', xorAll_set_xor hx, BitVec.xor_assoc, BitVec.xor_self, BitVec.xor_zero]
    simp only [frameChecksum, xorAll_cons, hlength, hxor]
  refine ⟨fun hsame => ?_, ?_⟩
  · have hread : wrong[i]? = some (x ^^^ BitVec.ofNat 8 (2 ^ bit)) := by
      rw [List.getElem?_set_ne hij.symm, List.getElem?_set_self']
      simp [hx]
    rw [hsame, hx, Option.some.injEq] at hread
    exact bit_ne_zero hbit (BitVec.xor_right_inj x |>.1 (hread.symm.trans BitVec.xor_zero.symm))
  · obtain ⟨t, ht, hres, -⟩ := feedBytes_frame_of_fits (body := wrong) hp hst (toNat_lengthByte (hlength ▸ hlen)).symm
      (hlength ▸ hfits) (frameChecksum wrong)
    rw [← feedBytes_eq_runProgram_feed, hchecksum, ← hlength]
    exact ⟨t, _, ht, hres.trans (congrArg (_ ++ [·]) (checksumResult_right _ _ _))⟩

/-! ### The wire frame as an instruction -/

/-- The last byte fed leaves the countdown reloaded (R126). -/
theorem feedBytes_rxTimer {bs : List Byte} {s t : State} (hne : bs ≠ []) (h : feedBytes bs s = .next t) :
    t.rxTimer = s.cfg.tByte := by
  obtain ⟨front, d, rfl⟩ := (List.eq_nil_or_concat' bs).resolve_left hne
  obtain ⟨s1, s2, h1, h2, rfl⟩ := feedBytes_append_cases h
  obtain ⟨hcfg, -⟩ := feedBytes_cfg_pending h1
  have htimer := execDecByte_rxTimer (feedBytes_singleton_cases h2)
  rwa [hcfg] at htimer

/-- Feeding stores nothing outside `0 .. CAP-1` (R50). -/
theorem feedBytes_read_of_cap_le {bs : List Byte} {s t : State} (hp : s.cfg.Valid) (h : feedBytes bs s = .next t) {a : Nat}
    (ha : s.cfg.cap ≤ a) : t.rxBuf.read a = s.rxBuf.read a := by
  induction bs generalizing s t with
  | nil => cases h; rfl
  | cons d bs ih =>
    obtain ⟨s1, s2, h1, h2, rfl⟩ := feedBytes_cons_cases h
    obtain ⟨hcfg, -, hbuf⟩ := execDecByte_effect h1
    refine (ih (hcfg ▸ hp) h2 (hcfg ▸ ha)).trans ?_
    rcases hbuf with ⟨-, hbuf⟩ | ⟨i, hi, hbuf⟩
    · rw [hbuf]
    · have hlt : i < s.cfg.cap := storeIndex_lt hp hi
      rw [hbuf, Memory.read_write_of_ne _ _ (by omega)]

/-- Settles O30: each byte completes, and what each leaves alone the frame leaves alone. -/
theorem frameCompletes : Obligations.FrameCompletes := by
  intro body cs s hp
  obtain ⟨t, ht, hlen, hcfg, hacc, hpending⟩ := feedBytes_frame (wireFrame body cs) s hp
  exact ⟨t, ht, hlen.trans (by simp [wireFrame]), hcfg, hacc, hpending, feedBytes_rxTimer (List.cons_ne_nil _ _) ht,
    fun a ha => feedBytes_read_of_cap_le hp ht ha⟩

/-- A list is cut at any of its places. -/
theorem exists_append_of_lt_length {α : Type} {ys : List α} {k : Nat} (h : k < ys.length) :
    ∃ xs d zs, ys = xs ++ d :: zs ∧ xs.length = k := by
  refine ⟨ys.take k, ys[k], ys.drop (k + 1), ?_, List.length_take_of_le h.le⟩
  rw [List.getElem_cons_drop, List.take_append_drop]

/-- A wire frame that does not fit gives `PENDING` for the bytes that fill the buffer and `PacketSizeExceeded` for the next. -/
theorem results_of_wireFrame_tooLong {body : List Byte} {cs : Byte} {s t : State} (hp : s.cfg.Valid)
    (hst : s.rxState = .awaitSync) (hlen : body.length ≤ 255) (hlong : s.cfg.cap < body.length + 3)
    (h : feedBytes (wireFrame body cs) s = .next t) :
    t.results.take (s.cfg.cap + 1) = List.replicate s.cfg.cap .pending ++ [.error .packetSizeExceeded] := by
  have hcap4 : 4 ≤ s.cfg.cap := hp.1
  obtain ⟨taken, d, rest, hbytes, hcount⟩ : ∃ taken d rest, body ++ [cs] = taken ++ d :: rest ∧ taken.length = s.cfg.cap - 2 :=
    exists_append_of_lt_length (by simp; omega)
  have hsplit : wireFrame body cs = (Config.sync :: BitVec.ofNat 8 body.length :: (taken ++ [d])) ++ rest := by
    simp [wireFrame, hbytes]
  rw [hsplit] at h
  obtain ⟨s1, s2, h1, -, rfl⟩ := feedBytes_append_cases h
  obtain ⟨u, hu, hres, -⟩ := feedBytes_tooLong (l := BitVec.ofNat 8 body.length) hp hst (body := taken) (by omega)
    (by rwa [toNat_lengthByte hlen]) d
  cases hu.symm.trans h1
  exact (List.take_left' (by simp [hres])).trans hres

/-- Settles O31: the frame that fits, and the front of the one that does not. -/
theorem frameFromIdle : Obligations.FrameFromIdle := by
  intro body cs s t hp hst hlen h
  refine ⟨fun hfits => ?_, fun hlong => results_of_wireFrame_tooLong hp hst hlen hlong h⟩
  obtain ⟨u, hu, hres, hstate, hcnt, hbuf⟩ := feedBytes_frame_of_fits hp hst (toNat_lengthByte hlen).symm hfits cs
  cases hu.symm.trans h
  refine ⟨hres, hstate, hcnt, fun a ha => ?_, fun a ha => ?_⟩
  · have hlt : a < (Config.sync :: BitVec.ofNat 8 body.length :: body).length := ha
    rw [hbuf, List.getElem?_eq_getElem hlt, Option.some_or, ← List.getElem?_eq_getElem hlt]
    exact (List.getElem?_append_left hlt).symm
  · rw [hbuf, List.getElem?_eq_none ha, Option.none_or]

end Sys2Proof.Machine
end

section
/-! SUPPORT. The rollover accumulator (`42_accumulator.md`): what one sample adds to its pair (R140, R141, R146) and what a list of
samples adds (R145). -/

namespace Sys2Proof.Machine

/-! ### One operation -/

theorem exec_accUpdate_of_some {k : BitVec 4} {s : State} {a : Acc} (h : s.acc[k.toNat]? = some a) (raw : Byte) :
    exec (.accUpdate k raw) s =
      .next { s with
        acc := s.acc.set k.toNat { prev := raw, cum := (a.cum + rolloverDelta raw a.prev) % 2 ^ s.cfg.accW },
        results := [.acc raw ((a.cum + rolloverDelta raw a.prev) % 2 ^ s.cfg.accW)] } :=
  updateAcc_of_some h _

/-- What a sample leaves in its pair, it also returns. -/
theorem exec_accUpdate_pair {k : BitVec 4} {s : State} {a : Acc} (h : s.acc[k.toNat]? = some a) (raw : Byte) :
    ∃ t, exec (.accUpdate k raw) s = .next t ∧ t.cfg = s.cfg ∧
      t.results = [.acc raw ((a.cum + rolloverDelta raw a.prev) % 2 ^ s.cfg.accW)] ∧
      t.acc[k.toNat]? = some { prev := raw, cum := (a.cum + rolloverDelta raw a.prev) % 2 ^ s.cfg.accW } :=
  ⟨_, exec_accUpdate_of_some h raw, rfl, rfl, by simp [List.getElem?_set_self', h]⟩

/-- Settles O32: the pair is the one the index names, and the difference is that of R141 (f). -/
theorem accUpdateFoldsSample : Obligations.AccUpdateFoldsSample := by
  refine fun k raw => ⟨rfl, fun s hk hcount => ?_⟩
  have hpair : s.acc[k.toNat]? = some (s.acc[k.toNat]'(hcount ▸ hk)) := List.getElem?_eq_getElem _
  exact ⟨_, hpair, by rw [exec_accUpdate_of_some hpair, rolloverDelta_eq]⟩

/-- Settles O33: a total of `ACC_W` bits is its own residue. -/
theorem accLoadSetsPair : Obligations.AccLoadSetsPair := by
  refine fun k d c => ⟨rfl, fun s hk hcount hc => ?_⟩
  have hcum : cumOperand s.cfg c = c := Nat.mod_eq_of_lt hc
  simp only [exec, execAccLoad, hcum]
  exact updateAcc_of_some (List.getElem?_eq_getElem (hcount ▸ hk)) _

/-- Settles O35: both operations are `updateAcc`, which finds no pair. -/
theorem accRefusesMissingInstance : Obligations.AccRefusesMissingInstance := by
  intro k d c s hcount hk
  have hmissing : ¬ k.toNat < s.acc.length := by omega
  exact ⟨updateAcc_refused_of_not_lt hmissing _, updateAcc_refused_of_not_lt hmissing _⟩

/-! ### The difference of two samples -/

/-- An advance of the counter is seen modulo 256. -/
theorem rolloverDelta_add_ofNat (prev : Byte) (n : Nat) : rolloverDelta (prev + BitVec.ofNat 8 n) prev = n % 256 := by
  rw [rolloverDelta, add_sub_cancel_left, BitVec.toNat_ofNat]

@[simp] theorem rolloverDelta_self (prev : Byte) : rolloverDelta prev prev = 0 := by
  rw [rolloverDelta, BitVec.sub_self, BitVec.toNat_zero]

theorem rolloverDelta_add_one (prev : Byte) : rolloverDelta (prev + 1) prev = 1 := rolloverDelta_add_ofNat prev 1

/-- One count back is 255 counts ahead. -/
theorem rolloverDelta_sub_one (prev : Byte) : rolloverDelta (prev - 1) prev = 255 := by
  have hback : prev - 1 = prev + BitVec.ofNat 8 255 := sub_eq_add_neg prev 1
  rw [hback, rolloverDelta_add_ofNat]

/-- A smaller sample is one wrap ahead. -/
theorem rolloverDelta_of_lt {raw prev : Byte} (h : raw.toNat < prev.toNat) :
    rolloverDelta raw prev = raw.toNat + 256 - prev.toNat := by
  rw [rolloverDelta_eq, Nat.mod_eq_of_lt (by omega)]

/-- Settles O38: the difference is the advance modulo 256. -/
theorem advanceSeenModulo256 : Obligations.AdvanceSeenModulo256 := by
  intro k n s a h
  obtain ⟨t, ht, -, -, hpair⟩ := exec_accUpdate_pair h (a.prev + BitVec.ofNat 8 n)
  exact ⟨t, ht, rolloverDelta_add_ofNat a.prev n ▸ hpair⟩

/-- Settles O36: the difference of each case is 0, `raw + 256 - prev`, 255 and 1. -/
theorem accCornerCases : Obligations.AccCornerCases := by
  intro k raw s a h hcum _
  obtain ⟨t, ht, -, hres, hpair⟩ := exec_accUpdate_pair h raw
  refine ⟨fun hsame => ?_, fun hlt => ⟨t, ht, ?_⟩, fun hback => ⟨t, ht, ?_⟩, fun hnext hmax => ⟨t, ht, ?_⟩⟩
  · obtain ⟨hk, ha⟩ := List.getElem?_eq_some_iff.1 h
    have hset : s.acc.set k.toNat a = s.acc := by rw [← ha, List.set_getElem_self]
    rw [exec_accUpdate_of_some h, hsame, rolloverDelta_self, Nat.add_zero, Nat.mod_eq_of_lt hcum, hset]
  · rw [hres, rolloverDelta_of_lt hlt]
  · rw [hres, hback, rolloverDelta_sub_one]
  · have hwrap : (a.cum + rolloverDelta raw a.prev) % 2 ^ s.cfg.accW = 0 := by
      rw [hnext, rolloverDelta_add_one, hmax, Nat.sub_add_cancel Nat.one_le_two_pow, Nat.mod_self]
    exact ⟨hwrap ▸ hres, hwrap ▸ hpair⟩

/-! ### A list of samples -/

/-- The totals that an accumulator of width `w` at total `c` goes through as the differences are added. -/
def runningTotals (w : Nat) : Nat → List Nat → List Nat
  | _, [] => []
  | c, d :: ds => (c + d) % 2 ^ w :: runningTotals w ((c + d) % 2 ^ w) ds

@[simp] theorem length_runningTotals (w c : Nat) (ds : List Nat) : (runningTotals w c ds).length = ds.length := by
  induction ds generalizing c with
  | nil => rfl
  | cons d ds ih => simp [runningTotals, ih]

theorem sampleDeltas_cons (prev r : Byte) (rs : List Byte) :
    sampleDeltas prev (r :: rs) = rolloverDelta r prev :: sampleDeltas r rs := by
  rw [sampleDeltas, rolloverDelta_eq]

@[simp] theorem length_sampleDeltas (prev : Byte) (rs : List Byte) : (sampleDeltas prev rs).length = rs.length := by
  induction rs generalizing prev with
  | nil => rfl
  | cons r rs ih => simp [sampleDeltas, ih]

/-- As long as the sum of the differences does not wrap, the totals do not decrease. -/
theorem pairwise_le_runningTotals {w c : Nat} {ds : List Nat} (h : c + ds.sum < 2 ^ w) :
    (c :: runningTotals w c ds).Pairwise (· ≤ ·) := by
  rw [← List.isChain_iff_pairwise]
  induction ds generalizing c with
  | nil => exact .singleton c
  | cons d ds ih =>
    rw [List.sum_cons] at h
    have hnowrap : (c + d) % 2 ^ w = c + d := Nat.mod_eq_of_lt (by omega)
    rw [runningTotals, hnowrap, List.isChain_cons_cons]
    exact ⟨Nat.le_add_right c d, ih (by omega)⟩

/-- The samples return the running totals, and the last total is the sum modulo `2^ACC_W`: each sample adds its difference and
leaves the pair that the next one reads. -/
theorem runProgram_accUpdates (k : BitVec 4) (samples : List Byte) {s : State} {a : Acc} (h : s.acc[k.toNat]? = some a)
    (hcum : a.cum < 2 ^ s.cfg.accW) :
    ∃ t, runProgram (samples.map (.accUpdate k)) s = .next t ∧
      t.acc[k.toNat]? = some
        { prev := samples.getLastD a.prev, cum := (a.cum + (sampleDeltas a.prev samples).sum) % 2 ^ s.cfg.accW } ∧
      t.results = List.zipWith .acc samples (runningTotals s.cfg.accW a.cum (sampleDeltas a.prev samples)) := by
  induction samples generalizing s a with
  | nil => exact ⟨_, runProgram_nil s, by simpa [sampleDeltas, Nat.mod_eq_of_lt hcum] using h, rfl⟩
  | cons raw samples ih =>
    obtain ⟨s1, h1, hcfg, hres1, hpair1⟩ := exec_accUpdate_pair h raw
    obtain ⟨t, ht, hpair, hres⟩ := ih hpair1 (hcfg ▸ Nat.mod_lt _ (Nat.two_pow_pos _))
    refine ⟨_, runProgram_cons h1 ht, ?_, ?_⟩
    · rw [sampleDeltas_cons, List.sum_cons, ← Nat.add_assoc, ← Nat.mod_add_mod, List.getLastD_cons, ← hcfg]
      exact hcfg ▸ hpair
    · rw [sampleDeltas_cons, runningTotals, List.zipWith_cons_cons, hres1, hres, hcfg]
      rfl

/-- Settles O37: the totals returned are the running totals. -/
theorem sumLaw : Obligations.SumLaw := by
  intro k samples s a h hcum
  obtain ⟨t, ht, hpair, hres⟩ := runProgram_accUpdates k samples h hcum
  exact ⟨t, ht, hpair, fun hnowrap => ⟨_, by simp, hres, pairwise_le_runningTotals hnowrap⟩⟩

end Sys2Proof.Machine
end

section
/-! SUPPORT. `NOP`, `RESET` and the reserved codes (`43_control.md`). -/

namespace Sys2Proof.Machine

/-- Settles O1: the operation is a reply on the state as it is. -/
theorem nopChangesNothing : Obligations.NopChangesNothing := ⟨rfl, reply_eq .pending⟩

/-- Settles O2: the reply is on `resetRegisters`, whose field updates are the ones listed. -/
theorem resetWritesEveryRegister : Obligations.ResetWritesEveryRegister :=
  ⟨rfl, fun s => reply_eq .pending (resetRegisters s)⟩

/-- Settles O4: each reserved row is `refuseReserved` of its own code, and reads no register. -/
theorem reservedCodesRefused : Obligations.ReservedCodesRefused :=
  ⟨⟨rfl, rfl, rfl, rfl, rfl, rfl, rfl⟩, fun _ => ⟨rfl, rfl, rfl, rfl, rfl, rfl, rfl⟩⟩

end Sys2Proof.Machine
end

section
/-! SUPPORT. The order of the tests (`60_exceptions.md` R166). -/

namespace Sys2Proof.Machine

/-- In `AWAIT_SYNC` the byte's value alone selects the result (R112, R113). -/
theorem execDecByte_result_of_awaitSync {d : Byte} {s t : State} (h : execDecByte d s = .next t)
    (hst : s.rxState = .awaitSync) : t.results = [.pending] ∨ t.results = [.error .missingSync] := by
  rw [execDecByte_result h]
  by_cases hd : d = Config.sync
  · exact .inl (by rw [byteArm_of_guard (arm := .beginFrame) ⟨hst, hd⟩]; rfl)
  · exact .inr (by rw [byteArm_of_guard (arm := .missingSync) ⟨hst, hd⟩]; rfl)

/-- A byte answered `BadChecksum` passed the tests of R118. -/
theorem guard_of_badChecksum {d : Byte} {s t : State} (h : execDecByte d s = .next t)
    (hr : t.results = [.error .badChecksum]) : ByteArm.badChecksum.Guard d s := by
  have hg := byteArm_guard d s
  have hres := (execDecByte_result h).symm.trans hr
  cases harm : byteArm d s with rw [harm] at hg hres
  | badChecksum => exact hg
  | beginFrame | takeLength | takeBody | accept | missingSync | tooLong => cases hres

/-- Past the body's last byte, R28 (d) leaves one fill count: the checksum byte's offset. -/
theorem Inv.rxCnt_eq_of_body_taken {s : State} (hinv : Inv s) (hst : s.rxState = .readBody)
    (hend : s.rxLen.toNat + 2 ≤ s.rxCnt) : s.rxCnt = s.rxLen.toNat + 2 :=
  have ⟨_, hle⟩ := hinv.lengthByte (hinv.readBody_iff.1 hst)
  hle.antisymm hend

/-- A byte answered `BadChecksum` or `DECODED` passed the state and capacity tests, and the whole body stands before it. -/
theorem checksum_tests_of_result {d : Byte} {s t : State} (h : execDecByte d s = .next t)
    (hr : t.results = [.error .badChecksum] ∨ ∃ l b ty, t.results = [.decoded l b ty]) :
    s.rxState = .readBody ∧ s.rxCnt + 1 ≤ s.cfg.cap ∧ s.rxLen.toNat + 2 ≤ s.rxCnt := by
  rcases hr with hbad | ⟨l, b, ty, hdec⟩
  · obtain ⟨hst, hcap, hend, -⟩ := guard_of_badChecksum h hbad
    exact ⟨hst, hcap, hend⟩
  · obtain ⟨⟨hst, hcap, hend, -⟩, -⟩ := guard_of_decoded h hdec
    exact ⟨hst, hcap, hend⟩

/-- The two lapses of `DEC_TICK` are told apart by the fill count alone (R124, R125). -/
theorem execDecTick_rxCnt_of_lapse {s t : State} (h : execDecTick s = .next t) :
    (t.results = [.noMessage] → s.rxCnt = 0) ∧ (t.results = [.error .timeoutMidMessage] → 0 < s.rxCnt) := by
  rcases execDecTick_cases s with ⟨-, hs⟩ | ⟨-, hs⟩ | ⟨-, hempty, hs⟩ | ⟨-, hcnt, hs⟩ <;> cases hs.symm.trans h
  · exact ⟨nofun, nofun⟩
  · exact ⟨nofun, nofun⟩
  · exact ⟨fun _ => hempty, nofun⟩
  · exact ⟨nofun, fun _ => Nat.pos_of_ne_zero hcnt⟩

/-- Settles O17: the three ranks of R166 are the tests of the rows; the invariant places the checksum byte, and the one test of
`DEC_TICK` needs none. -/
theorem byteTestsInOrder : Obligations.ByteTestsInOrder := by
  refine ⟨fun d s t hinv h => ⟨execDecByte_result_of_awaitSync h, fun hst hcap => ?_, fun hr => ?_⟩,
    fun s t _ h => execDecTick_rxCnt_of_lapse h⟩
  · cases (execDecByte_tooLong hst hcap).symm.trans h
    rfl
  · obtain ⟨hst, hcap, hend⟩ := checksum_tests_of_result h hr
    exact ⟨hst, hcap, hinv.rxCnt_eq_of_body_taken hst hend⟩

end Sys2Proof.Machine
end

section
/-! SUPPORT. What a host must know of the accumulator's samples (`70_reset_and_hazards.md` R203, R204). -/

namespace Sys2Proof.Machine

/-- Two operations, one after the other, return the results of both. -/
theorem runProgram_pair {i j : Instr} {s s1 s2 : State} (h1 : exec i s = .next s1) (h2 : exec j s1 = .next s2) :
    runProgram [i, j] s = .next { s2 with results := s1.results ++ s2.results } := by
  rw [runProgram_cons h1 (runProgram_cons h2 (runProgram_nil s2)), List.append_nil]

/-- A sample that is `j` counts late is seen as `256 - j` counts ahead. -/
theorem rolloverDelta_sub_ofNat (prev : Byte) {j : Nat} (hpos : 0 < j) (hj : j < 256) :
    rolloverDelta (prev - BitVec.ofNat 8 j) prev = 256 - j := by
  have hback : prev - BitVec.ofNat 8 j - prev = -BitVec.ofNat 8 j := sub_sub_cancel_left prev _
  rw [rolloverDelta, hback, BitVec.toNat_neg, BitVec.toNat_ofNat, Nat.mod_eq_of_lt hj, Nat.mod_eq_of_lt (by omega)]

/-- Seen from a sample that is `j` counts late, the next one makes up for those counts as well. -/
theorem rolloverDelta_add_ofNat_sub_ofNat (prev : Byte) {j m : Nat} (h : j + m < 256) :
    rolloverDelta (prev + BitVec.ofNat 8 m) (prev - BitVec.ofNat 8 j) = j + m := by
  have hahead : prev + BitVec.ofNat 8 m = prev - BitVec.ofNat 8 j + BitVec.ofNat 8 (j + m) := by
    rw [BitVec.ofNat_add, ← add_assoc, sub_add_cancel]
  rw [hahead, rolloverDelta_add_ofNat, Nat.mod_eq_of_lt h]

/-- Settles O39: the two differences are `256 - j` and `j + m`, whose sum is 256 more than the advance. -/
theorem lateSampleCountsForward : Obligations.LateSampleCountsForward := by
  intro k j m s a h hpos hj hjm
  obtain ⟨s1, h1, hcfg, hres1, hpair⟩ := exec_accUpdate_pair h (a.prev - BitVec.ofNat 8 j)
  obtain ⟨s2, h2, -, hres2, -⟩ := exec_accUpdate_pair hpair (a.prev + BitVec.ofNat 8 m)
  have hsum : a.cum + (256 - j) + (j + m) = a.cum + m + 256 := by omega
  refine ⟨_, runProgram_pair h1 h2, ?_⟩
  rw [hres1, hres2, hcfg, rolloverDelta_sub_ofNat a.prev hpos hj, rolloverDelta_add_ofNat_sub_ofNat a.prev hjm,
    Nat.mod_add_mod, hsum]
  rfl

/-- Seen from zero, a sample is its own difference. -/
@[simp] theorem rolloverDelta_zero (raw : Byte) : rolloverDelta raw 0x00#8 = raw.toNat := by
  rw [rolloverDelta, BitVec.sub_zero]

/-- A total holds a whole sample, because `ACC_W` is more than 8 (R7). -/
theorem sample_lt_two_pow_accW {p : Params} (hp : p.Valid) (raw : Byte) : raw.toNat < 2 ^ p.accW := by
  obtain ⟨-, -, -, hwidth, -⟩ := hp
  exact raw.isLt.trans (Nat.pow_lt_pow_right one_lt_two hwidth)

/-- Settles O40: the difference from the zeroed pair is the sample, and the total holds it. -/
theorem firstSampleAddsItself : Obligations.FirstSampleAddsItself := by
  intro k raw s hp hk
  have hreset := resetWritesEveryRegister.2 s
  obtain ⟨-, -, -, -, -, -, hzero, -⟩ := resetValues.2 s _ hreset
  obtain ⟨t, ht, -, hres, hpair⟩ := exec_accUpdate_pair (hzero k.toNat hk) raw
  have htotal : (0 + rolloverDelta raw 0x00#8) % 2 ^ s.cfg.accW = raw.toNat := by
    rw [Nat.zero_add, rolloverDelta_zero, Nat.mod_eq_of_lt (sample_lt_two_pow_accW hp raw)]
  refine ⟨_, runProgram_pair hreset ht, ?_, htotal ▸ hpair⟩
  rw [hres, htotal]
  rfl

end Sys2Proof.Machine
end
